-- ==== Sys2Proof/Word.lean ====
section
/-! DEFINITION. The value types of the machine (spec 00_scope.md R9, R10, R13): bytes, 16-bit
words, 12-bit addresses and the names of the general registers. -/

namespace Sys2Proof

/-- `Bits8` of R10: a register, a memory byte, a timer. -/
abbrev Byte := BitVec 8

/-- `Bits16` of R10: an opcode word, the program counter, a return address, the key mask. -/
abbrev Word := BitVec 16

/-- `Bits12` of R10 and R13: an address of the 4096-byte memory, and the index register `I`. -/
abbrev Addr := BitVec 12

/-- The name of one of the sixteen general registers `R0..RF` (R19). -/
abbrev Reg := Fin 16

/-- `RF`, the general register that some instructions also write as a flag (R20). -/
abbrev RF : Reg := 15

/-- `R0`, the register that `Bnnn` always reads (R76). -/
abbrev R0 : Reg := 0

end Sys2Proof
end

