-- ==== Sys2Proof/Config.lean ====
section
/-! DEFINITION. What is fixed for one machine (the parameters of spec 00_scope.md R6 and R7) and
the free values the spec leaves open (R7, R8). -/

namespace Sys2Proof

/-- The two implementation parameters. State carries one of these, because a meaning has no other
argument to read it from; no instruction, no step and no host operation changes it.
DESIGN CHOICE, safe: notes/assumptions/3.md and 4.md. -/
structure Config where
  /-- `LEGACY_SHIFT_QUIRK` (R6): `8xy6` and `8xyE` shift `Ry` when true, `Rx` when false. -/
  legacyShiftQuirk : Bool
  /-- `TICK_UNITS` (R7): simulated-time units in one 1/60 s timer period; at least 1. -/
  tickUnits : Nat
  deriving DecidableEq, Repr

/-- How far `TICK_UNITS` is above its least value 1. The spec leaves `TICK_UNITS` OPEN (R7, D15),
so this is a free value: it has no body. -/
opaque Config.tickUnitsAboveOne : Nat

/-- `TICK_UNITS` of the machine after reset: any number that is at least 1 (R7). -/
def Config.openTickUnits : Nat := Config.tickUnitsAboveOne + 1

/-- `random_byte()` (R8): the draw of the step numbered `n`. Free value under no law (D17).
notes/assumptions/1.md. -/
opaque Config.rndAt : Nat → Byte

/-- The simulated-time units that the step numbered `n` accounts for, the step's host input `dt`
(R7). Free value (D15). notes/assumptions/1.md. -/
opaque Config.dtAt : Nat → Nat

/-- The parameters after reset: the quirk at its default `false` (R6), `TICK_UNITS` open (R7). -/
def Config.reset : Config :=
  { legacyShiftQuirk := false, tickUnits := Config.openTickUnits }

end Sys2Proof
end

