-- ==== Sys2Proof/Syntax.lean ====
section
/-! DEFINITION. The instructions: one constructor per row of spec/opcode_table.json, in the table's
order (spec 30_encoding.md R58, R59, R61). -/

namespace Sys2Proof

/-- An instruction. `x` and `y` name general registers, `kk` is an 8-bit immediate, `nnn` a 12-bit
absolute address and `n` a count of sprite rows (R57, R59). -/
inductive Instr where
  /-- `00E0` CLS (R99). -/
  | cls
  /-- `00EE` RET (R69). -/
  | ret
  /-- `1nnn` JP (R70). -/
  | jp (nnn : Addr)
  /-- `2nnn` CALL (R71). -/
  | call (nnn : Addr)
  /-- `3xkk` SE with an immediate (R72). -/
  | seImm (x : Reg) (kk : Byte)
  /-- `4xkk` SNE with an immediate (R73). -/
  | sneImm (x : Reg) (kk : Byte)
  /-- `5xy0` SE with a register (R74). -/
  | seReg (x y : Reg)
  /-- `6xkk` LD with an immediate (R78). -/
  | ldImm (x : Reg) (kk : Byte)
  /-- `7xkk` ADD with an immediate (R79). -/
  | addImm (x : Reg) (kk : Byte)
  /-- `8xy0` LD with a register (R80). -/
  | ldReg (x y : Reg)
  /-- `8xy1` OR (R81). -/
  | or (x y : Reg)
  /-- `8xy2` AND (R82). -/
  | and (x y : Reg)
  /-- `8xy3` XOR (R83). -/
  | xor (x y : Reg)
  /-- `8xy4` ADD with a register (R84). -/
  | addReg (x y : Reg)
  /-- `8xy5` SUB (R85). -/
  | sub (x y : Reg)
  /-- `8xy6` SHR (R86). -/
  | shr (x y : Reg)
  /-- `8xy7` SUBN (R87). -/
  | subn (x y : Reg)
  /-- `8xyE` SHL (R88). -/
  | shl (x y : Reg)
  /-- `9xy0` SNE with a register (R75). -/
  | sneReg (x y : Reg)
  /-- `Annn` LD I (R91). -/
  | ldI (nnn : Addr)
  /-- `Bnnn` JP R0 (R76). -/
  | jpR0 (nnn : Addr)
  /-- `Cxkk` RND (R89). -/
  | rnd (x : Reg) (kk : Byte)
  /-- `Dxyn` DRW (R100). -/
  | drw (x y : Reg) (n : Nat)
  /-- `Ex9E` SKP (R105). -/
  | skp (x : Reg)
  /-- `ExA1` SKNP (R106). -/
  | sknp (x : Reg)
  /-- `Fx07` LD Rx, DT (R107). -/
  | ldRDt (x : Reg)
  /-- `Fx0A` LD Rx, K (R108). -/
  | ldRK (x : Reg)
  /-- `Fx15` LD DT, Rx (R109). -/
  | ldDt (x : Reg)
  /-- `Fx18` LD ST, Rx (R110). -/
  | ldSt (x : Reg)
  /-- `Fx1E` ADD I, Rx (R92). -/
  | addI (x : Reg)
  /-- `Fx29` LD F, Rx (R93). -/
  | ldF (x : Reg)
  /-- `Fx33` LD B, Rx (R94). -/
  | ldB (x : Reg)
  /-- `Fx55` LD [I], Rx (R95). -/
  | stRegs (x : Reg)
  /-- `Fx65` LD Rx, [I] (R96). -/
  | ldRegs (x : Reg)
  deriving DecidableEq, Repr

end Sys2Proof
end

