-- ==== Sys2Proof/Machine/State.lean ====
section
/-! DEFINITION. The architectural state (spec 10_state.md R18), the reasons a step can stop, and the
state after reset (R34). The last three fields of `State` are the model's own. -/

namespace Sys2Proof.Machine

/-- The four step faults (60_exceptions.md R111), each with the information its record holds. All
are fatal: the machine halts. A value of this type is also the fault record `{kind, pc, word}` of
R31, so that a word stands in exactly the records that have one. -/
inductive Fault where
  /-- Decode: the fetched word matches no row of the opcode map (R112). Raised by any step; the pc is
  the fetch address. Safe: the spec names the fault and the machine halts on it. -/
  | invalidOpcode (word pc : Word)
  /-- Fetch: `pc > 0xFFE` at the start of the step (R113). Raised by any step; the pc is that value.
  Safe: the spec names the fault and the machine halts on it. -/
  | programCounterOutOfRange (pc : Word)
  /-- `2nnn` with 16 return addresses on the stack (R114). The pc is the instruction's address.
  Safe: the spec names the fault and the machine halts on it. -/
  | stackOverflow (pc : Word)
  /-- `00EE` with an empty stack (R115). The pc is the instruction's address. Safe: the spec names
  the fault and the machine halts on it. -/
  | stackUnderflow (pc : Word)
  deriving DecidableEq, Repr

/-- Why the model gives an instruction no meaning. -/
inductive Refusal where
  /-- Raised by an arm of `exec` whose instruction has no meaning yet: no arm of this model is one.
  Safe: the model stops where the hardware goes on. -/
  | notModelled (mnemonic : String)
  deriving DecidableEq, Repr

/-- Memory as the cells that differ from what an unlisted address reads as, addresses strictly
rising (`Memory.wf` in Machine/Memory.lean). -/
abbrev Memory := List Host.Cell

/-- The 64 x 32 grid of 1-bit cells (R27): 32 rows, top first, of 64 cells, left first. Lit is true.
The storage of a cell is free (U7). -/
abbrev Display := Vector (Vector Bool 64) 32

/-- The architectural state of one machine (R18), the two parameters (R6, R7) and two fields of the
model's own. -/
structure State where
  /-- The general registers `R0..RF` (R19, R20). -/
  R : Vector Byte 16
  /-- The program counter, 16 bits, never reduced to 12 (R21). -/
  pc : Word
  /-- The index register, 12 bits (R22). -/
  I : Addr
  /-- The stack pointer: the number of return addresses held, 0..16 (R23). -/
  sp : Fin 17
  /-- The call stack: 16 return addresses (R24). -/
  stack : Vector Word 16
  /-- The delay timer (R25). -/
  DT : Byte
  /-- The sound timer (R26). -/
  ST : Byte
  /-- The 4096-byte memory (20_memory.md R38). -/
  mem : Memory
  /-- The display buffer (R27). -/
  pix : Display
  /-- The redraw flag (R28). -/
  redraw : Bool
  /-- The input mask: bit k is key k, 1 means pressed (R29). -/
  keys : Word
  /-- `tick_acc`: simulated time since the last tick (R30). -/
  tickAcc : Nat
  /-- The fault record; the machine is halted when there is one (R31, R120). -/
  fault : Option Fault
  /-- The parameters (R6, R7). Not state of the spec's; nothing changes it. -/
  cfg : Config
  /-- The step's input `rnd` (R8), latched for the execute phase. The model's own field. -/
  rnd : Byte
  /-- How many steps have begun executing; it selects the next free inputs `rnd` and `dt`. The
  model's own field (notes/assumptions/1.md). -/
  stepNo : Nat
  deriving DecidableEq, Repr

/-- The machine right after reset (R34, 70_reset_and_hazards.md R136). Memory lists nothing: an
unlisted address reads as the reset contents. -/
def State.reset : State where
  R := Vector.replicate 16 0x00
  pc := 0x200
  I := 0x000
  sp := 0
  stack := Vector.replicate 16 0x0000
  DT := 0x00
  ST := 0x00
  mem := []
  pix := Vector.replicate 32 (Vector.replicate 64 false)
  redraw := false
  keys := 0x0000
  tickAcc := 0
  fault := none
  cfg := Config.reset
  rnd := 0x00
  stepNo := 0

end Sys2Proof.Machine
end

