-- ==== Sys2Proof/Machine/Display.lean ====
section
/-! DEFINITION. The framebuffer controller's storage operations (spec 43_display.md R98): `Pix` read
and write (00_scope.md R13), clear, and the XOR blit with clipping and collision (R100 to R103). -/

namespace Sys2Proof.Machine

/-- `Pix(col, row)` (R13, R27); there is no cell outside the grid, and it reads as dark. -/
def Display.get (d : Display) (col row : Nat) : Bool :=
  if h : col < 64 ∧ row < 32 then (d[row])[col] else false

/-- `Pix(col, row) <- b` (R13); outside the grid nothing is written. -/
def Display.put (d : Display) (col row : Nat) (b : Bool) : Display :=
  if h : col < 64 ∧ row < 32 then d.set row ((d[row]).set col b) else d

/-- Every cell dark (R99). -/
def Display.blank : Display := Vector.replicate 32 (Vector.replicate 64 false)

/-- The display and the collision found so far, while a sprite is drawn. -/
structure Blit where
  pix : Display
  hit : Bool
  deriving DecidableEq, Repr

/-- One column `c` of a sprite row whose byte is `b` and whose cells start at `(cx, row)`: bit
`7 - c` is combined by XOR, clipped outside the grid, and a cell that goes dark is a collision
(R100 to R103). -/
def Blit.pixel (cx row : Nat) (b : Byte) (z : Blit) (c : Nat) : Blit :=
  if b.getLsbD (7 - c) = true then
    if cx + c ≤ 63 ∧ row ≤ 31 then
      { pix := z.pix.put (cx + c) row (!z.pix.get (cx + c) row)
        hit := z.hit || z.pix.get (cx + c) row }
    else z
  else z

/-- One sprite row: its eight columns from the left (R100, R101). -/
def Blit.row (cx row : Nat) (b : Byte) (z : Blit) : Blit :=
  (List.range 8).foldl (Blit.pixel cx row b) z

/-- The whole sprite: its row bytes from the top at `(cx, cy)` (R100). -/
def Blit.rows (cx : Nat) : Nat → List Byte → Blit → Blit
  | _, [], z => z
  | cy, b :: bs, z => Blit.rows cx (cy + 1) bs (Blit.row cx cy b z)

/-- Draw a sprite's row bytes at `(cx, cy)` on a display, with no collision yet (R100). -/
def Display.blit (d : Display) (cx cy : Nat) (sprite : List Byte) : Blit :=
  Blit.rows cx cy sprite { pix := d, hit := false }

end Sys2Proof.Machine
end

