-- ==== Sys2Proof/Machine/Flags.lean ====
section
/-! DEFINITION. Every flag computation of the machine (spec 10_state.md R20): the values written to
`RF` as a flag, each 0 or 1, and the arithmetic results they go with. -/

namespace Sys2Proof.Machine

/-- A flag as the byte `RF` holds. -/
def flagByte (b : Bool) : Byte := if b then 0x01 else 0x00

/-- Carry of `8xy4`: the unreduced sum exceeds 255 (41_alu.md R84). -/
def carry (a b : Byte) : Byte := flagByte (decide (a.toNat + b.toNat > 255))

/-- No-borrow of `8xy5` and `8xy7`: the minuend is at least the subtrahend (R85, R87). -/
def noBorrow (a b : Byte) : Byte := flagByte (decide (a.toNat ≥ b.toNat))

/-- The bit a right shift by one shifts out, bit 0 (R86). -/
def shiftedOutRight (v : Byte) : Byte := v &&& 0x01

/-- The bit a left shift by one shifts out, bit 7 (R88). -/
def shiftedOutLeft (v : Byte) : Byte := (v >>> 7) &&& 0x01

/-- Collision of `Dxyn` (43_display.md R103). -/
def collision (hit : Bool) : Byte := flagByte hit

/-- `(a + b) mod 256` (41_alu.md R79, R84, R90). -/
def add8 (a b : Byte) : Byte := BitVec.ofNat 8 (a.toNat + b.toNat)

/-- `(a - b) mod 256`, that is `(a + 256 - b) mod 256` (R85, R87). -/
def sub8 (a b : Byte) : Byte := BitVec.ofNat 8 (a.toNat + 256 - b.toNat)

/-- Logical right shift by one; bit 7 of the result is 0 (R86). -/
def shiftRight1 (v : Byte) : Byte := v >>> 1

/-- Left shift by one modulo 256; bit 0 of the result is 0 (R88). -/
def shiftLeft1 (v : Byte) : Byte := v <<< 1

end Sys2Proof.Machine
end

