-- ==== Sys2Proof/WellFormed.lean ====
section
/-! DEFINITION. Which instructions are well formed. The types of the operands carry every bound but
one: the row count of `Dxyn` is a `Nat`, and only 0..15 has an encoding (spec 30_encoding.md R59,
R65: no other field value is reserved). -/

namespace Sys2Proof

/-- A row count that the 4-bit field `n` can hold (R59: "a row count 0..15"). -/
def rowCountOk (n : Nat) : Bool := decide (n ≤ 15)

/-- The well-formed instructions: those that some word encodes. -/
def Instr.wf : Instr → Bool
  | .drw _ _ n => rowCountOk n
  | .cls | .ret => true
  | .jp _ | .call _ | .ldI _ | .jpR0 _ => true
  | .seImm _ _ | .sneImm _ _ | .ldImm _ _ | .addImm _ _ | .rnd _ _ => true
  | .seReg _ _ | .sneReg _ _ | .ldReg _ _ | .or _ _ | .and _ _ | .xor _ _ => true
  | .addReg _ _ | .sub _ _ | .shr _ _ | .subn _ _ | .shl _ _ => true
  | .skp _ | .sknp _ | .ldRDt _ | .ldRK _ | .ldDt _ | .ldSt _ => true
  | .addI _ | .ldF _ | .ldB _ | .stRegs _ | .ldRegs _ => true

end Sys2Proof
end

