-- ==== Sys2Proof/Decode.lean ====
section
/-! DEFINITION. The decoder, total on any bytes and rejecting by name, the opcode map as match and
mask pairs, and after it the encoder (spec 30_encoding.md R56 to R65, 20_memory.md R45, R47). -/

namespace Sys2Proof

/-! ## Fields -/

/-- The field `w[hi:lo]` as an unsigned number (R11). -/
def bits (w : Word) (hi lo : Nat) : Nat := w.toNat / 2 ^ lo % 2 ^ (hi + 1 - lo)

/-- `op`, "the top nibble (family selector)" (R57). -/
def fieldOp (w : Word) : Nat := bits w 15 12

/-- `x`, bits 11:8, a register (R57, R59). -/
def fieldX (w : Word) : Reg := Fin.ofNat 16 (bits w 11 8)

/-- `y`, bits 7:4, a register (R57, R59). -/
def fieldY (w : Word) : Reg := Fin.ofNat 16 (bits w 7 4)

/-- `n`, bits 3:0 (R57). -/
def fieldN (w : Word) : Nat := bits w 3 0

/-- `kk` as a number, bits 7:0: the sub-opcode of families E and F (R57, R59). -/
def fieldKKNat (w : Word) : Nat := bits w 7 0

/-- `kk`, bits 7:0, an immediate (R57, R59). -/
def fieldKK (w : Word) : Byte := BitVec.ofNat 8 (bits w 7 0)

/-- `nnn`, bits 11:0, an absolute address (R57, R59). -/
def fieldNNN (w : Word) : Addr := BitVec.ofNat 12 (bits w 11 0)

/-! ## The decoder -/

/-- Why bytes are no instruction. -/
inductive DecodeError where
  /-- Fewer than the two bytes of an instruction (R56). -/
  | truncated
  /-- The word matches no row of the opcode map (R63). -/
  | invalidOpcode (w : Word)
  deriving DecidableEq, Repr

/-- Family 0 matches the whole word (R62). -/
def decode0 (w : Word) : Except DecodeError Instr :=
  match w.toNat with
  | 0x00E0 => .ok .cls
  | 0x00EE => .ok .ret
  | _ => .error (.invalidOpcode w)

/-- Family 5 is selected by `n` (R61). -/
def decode5 (w : Word) : Except DecodeError Instr :=
  match fieldN w with
  | 0x0 => .ok (.seReg (fieldX w) (fieldY w))
  | _ => .error (.invalidOpcode w)

/-- Family 8 is selected by `n` (R61). -/
def decode8 (w : Word) : Except DecodeError Instr :=
  match fieldN w with
  | 0x0 => .ok (.ldReg (fieldX w) (fieldY w))
  | 0x1 => .ok (.or (fieldX w) (fieldY w))
  | 0x2 => .ok (.and (fieldX w) (fieldY w))
  | 0x3 => .ok (.xor (fieldX w) (fieldY w))
  | 0x4 => .ok (.addReg (fieldX w) (fieldY w))
  | 0x5 => .ok (.sub (fieldX w) (fieldY w))
  | 0x6 => .ok (.shr (fieldX w) (fieldY w))
  | 0x7 => .ok (.subn (fieldX w) (fieldY w))
  | 0xE => .ok (.shl (fieldX w) (fieldY w))
  | _ => .error (.invalidOpcode w)

/-- Family 9 is selected by `n` (R61). -/
def decode9 (w : Word) : Except DecodeError Instr :=
  match fieldN w with
  | 0x0 => .ok (.sneReg (fieldX w) (fieldY w))
  | _ => .error (.invalidOpcode w)

/-- Family E is selected by `kk` (R61). -/
def decodeE (w : Word) : Except DecodeError Instr :=
  match fieldKKNat w with
  | 0x9E => .ok (.skp (fieldX w))
  | 0xA1 => .ok (.sknp (fieldX w))
  | _ => .error (.invalidOpcode w)

/-- Family F is selected by `kk` (R61). -/
def decodeF (w : Word) : Except DecodeError Instr :=
  match fieldKKNat w with
  | 0x07 => .ok (.ldRDt (fieldX w))
  | 0x0A => .ok (.ldRK (fieldX w))
  | 0x15 => .ok (.ldDt (fieldX w))
  | 0x18 => .ok (.ldSt (fieldX w))
  | 0x1E => .ok (.addI (fieldX w))
  | 0x29 => .ok (.ldF (fieldX w))
  | 0x33 => .ok (.ldB (fieldX w))
  | 0x55 => .ok (.stRegs (fieldX w))
  | 0x65 => .ok (.ldRegs (fieldX w))
  | _ => .error (.invalidOpcode w)

/-- The instruction a word is, by the two-level dispatch of R60 and the map of R61. It reads the
word alone: no state and no parameter changes what a word is (R60). -/
def decode (w : Word) : Except DecodeError Instr :=
  match fieldOp w with
  | 0x0 => decode0 w
  | 0x1 => .ok (.jp (fieldNNN w))
  | 0x2 => .ok (.call (fieldNNN w))
  | 0x3 => .ok (.seImm (fieldX w) (fieldKK w))
  | 0x4 => .ok (.sneImm (fieldX w) (fieldKK w))
  | 0x5 => decode5 w
  | 0x6 => .ok (.ldImm (fieldX w) (fieldKK w))
  | 0x7 => .ok (.addImm (fieldX w) (fieldKK w))
  | 0x8 => decode8 w
  | 0x9 => decode9 w
  | 0xA => .ok (.ldI (fieldNNN w))
  | 0xB => .ok (.jpR0 (fieldNNN w))
  | 0xC => .ok (.rnd (fieldX w) (fieldKK w))
  | 0xD => .ok (.drw (fieldX w) (fieldY w) (fieldN w))
  | 0xE => decodeE w
  | 0xF => decodeF w
  | _ => .error (.invalidOpcode w)

/-- The word two bytes form: the first byte is bits 15:8, the second bits 7:0 (R45, R47). -/
def wordOfBytes (hi lo : Byte) : Word := BitVec.ofNat 16 (hi.toNat * 0x100 + lo.toNat)

/-- The byte of a word that lies at the lower address, bits 15:8 (R45). -/
def highByte (w : Word) : Byte := BitVec.ofNat 8 (bits w 15 8)

/-- The byte of a word that lies at the higher address, bits 7:0 (R45). -/
def lowByte (w : Word) : Byte := BitVec.ofNat 8 (bits w 7 0)

/-- The bytes of a word in the order memory holds them (R45). -/
def bytesOfWord (w : Word) : List Byte := [highByte w, lowByte w]

/-- The decoder over bytes: the instruction at their head and the bytes after it. -/
def decodeBytes : List Byte → Except DecodeError (Instr × List Byte)
  | hi :: lo :: rest =>
    match decode (wordOfBytes hi lo) with
    | .ok i => .ok (i, rest)
    | .error e => .error e
  | _ => .error .truncated

/-- The word of an opcode-table row whose `nbits` bits are `w`; every bit above them is 0. -/
def tableWord (nbits w : Nat) : Word := BitVec.ofNat 16 (w % 2 ^ nbits)

/-- The instruction the decoder reads from an opcode-table row's word, laid out in memory order. -/
def decodeTableWord (nbits w : Nat) : Option Instr :=
  match decodeBytes (bytesOfWord (tableWord nbits w)) with
  | .ok (i, _) => some i
  | .error _ => none

/-! ## The opcode map as match and mask pairs (R61; spec/opcode_table.json) -/

/-- One row of the opcode map. -/
structure OpcodeRow where
  mnemonic : String
  pattern : Word
  mask : Word
  deriving DecidableEq, Repr

/-- A word matches a row when its masked bits are the row's. -/
def OpcodeRow.fits (r : OpcodeRow) (w : Word) : Bool := w &&& r.mask == r.pattern

/-- Rows of families 0 to 7. -/
def opcodeRowsLow : List OpcodeRow :=
  [⟨"CLS", 0x00E0, 0xFFFF⟩, ⟨"RET", 0x00EE, 0xFFFF⟩, ⟨"JP", 0x1000, 0xF000⟩,
   ⟨"CALL", 0x2000, 0xF000⟩, ⟨"SE_imm", 0x3000, 0xF000⟩, ⟨"SNE_imm", 0x4000, 0xF000⟩,
   ⟨"SE_reg", 0x5000, 0xF00F⟩, ⟨"LD_imm", 0x6000, 0xF000⟩, ⟨"ADD_imm", 0x7000, 0xF000⟩]

/-- Rows of families 8 to D. -/
def opcodeRowsMid : List OpcodeRow :=
  [⟨"LD_reg", 0x8000, 0xF00F⟩, ⟨"OR", 0x8001, 0xF00F⟩, ⟨"AND", 0x8002, 0xF00F⟩,
   ⟨"XOR", 0x8003, 0xF00F⟩, ⟨"ADD_reg", 0x8004, 0xF00F⟩, ⟨"SUB", 0x8005, 0xF00F⟩,
   ⟨"SHR", 0x8006, 0xF00F⟩, ⟨"SUBN", 0x8007, 0xF00F⟩, ⟨"SHL", 0x800E, 0xF00F⟩,
   ⟨"SNE_reg", 0x9000, 0xF00F⟩, ⟨"LD_I", 0xA000, 0xF000⟩, ⟨"JP_R0", 0xB000, 0xF000⟩,
   ⟨"RND", 0xC000, 0xF000⟩, ⟨"DRW", 0xD000, 0xF000⟩]

/-- Rows of families E and F. -/
def opcodeRowsHigh : List OpcodeRow :=
  [⟨"SKP", 0xE09E, 0xF0FF⟩, ⟨"SKNP", 0xE0A1, 0xF0FF⟩, ⟨"LD_R_DT", 0xF007, 0xF0FF⟩,
   ⟨"LD_R_K", 0xF00A, 0xF0FF⟩, ⟨"LD_DT", 0xF015, 0xF0FF⟩, ⟨"LD_ST", 0xF018, 0xF0FF⟩,
   ⟨"ADD_I", 0xF01E, 0xF0FF⟩, ⟨"LD_F", 0xF029, 0xF0FF⟩, ⟨"LD_B", 0xF033, 0xF0FF⟩,
   ⟨"ST_REGS", 0xF055, 0xF0FF⟩, ⟨"LD_REGS", 0xF065, 0xF0FF⟩]

/-- The whole opcode map: 34 rows (R68). -/
def opcodeRows : List OpcodeRow := opcodeRowsLow ++ opcodeRowsMid ++ opcodeRowsHigh

/-- The mnemonic of an instruction's row in spec/opcode_table.json. -/
def Instr.mnemonic : Instr → String
  | .cls => "CLS"
  | .ret => "RET"
  | .jp _ => "JP"
  | .call _ => "CALL"
  | .seImm _ _ => "SE_imm"
  | .sneImm _ _ => "SNE_imm"
  | .seReg _ _ => "SE_reg"
  | .ldImm _ _ => "LD_imm"
  | .addImm _ _ => "ADD_imm"
  | .ldReg _ _ => "LD_reg"
  | .or _ _ => "OR"
  | .and _ _ => "AND"
  | .xor _ _ => "XOR"
  | .addReg _ _ => "ADD_reg"
  | .sub _ _ => "SUB"
  | .shr _ _ => "SHR"
  | .subn _ _ => "SUBN"
  | .shl _ _ => "SHL"
  | .sneReg _ _ => "SNE_reg"
  | .ldI _ => "LD_I"
  | .jpR0 _ => "JP_R0"
  | .rnd _ _ => "RND"
  | .drw _ _ _ => "DRW"
  | .skp _ => "SKP"
  | .sknp _ => "SKNP"
  | .ldRDt _ => "LD_R_DT"
  | .ldRK _ => "LD_R_K"
  | .ldDt _ => "LD_DT"
  | .ldSt _ => "LD_ST"
  | .addI _ => "ADD_I"
  | .ldF _ => "LD_F"
  | .ldB _ => "LD_B"
  | .stRegs _ => "ST_REGS"
  | .ldRegs _ => "LD_REGS"

/-! ## The encoder (formats of R58, words of R61) -/

/-- Format `NNN`: `op[15:12] nnn[11:0]`. -/
def encNNN (op : Nat) (nnn : Addr) : Word := BitVec.ofNat 16 (op * 0x1000 + nnn.toNat)

/-- Format `XKK`: `op[15:12] x[11:8] kk[7:0]`; format `XS` is the same with a fixed `kk`. -/
def encXKK (op : Nat) (x : Reg) (kk : Nat) : Word :=
  BitVec.ofNat 16 (op * 0x1000 + x.val * 0x100 + kk)

/-- Formats `XYS` and `XYN`: `op[15:12] x[11:8] y[7:4] n[3:0]`. -/
def encXYN (op : Nat) (x y : Reg) (n : Nat) : Word :=
  BitVec.ofNat 16 (op * 0x1000 + x.val * 0x100 + y.val * 0x10 + n)

/-- The word of a well-formed instruction (R61). -/
def encode : Instr → Word
  | .cls => 0x00E0
  | .ret => 0x00EE
  | .jp nnn => encNNN 0x1 nnn
  | .call nnn => encNNN 0x2 nnn
  | .seImm x kk => encXKK 0x3 x kk.toNat
  | .sneImm x kk => encXKK 0x4 x kk.toNat
  | .seReg x y => encXYN 0x5 x y 0x0
  | .ldImm x kk => encXKK 0x6 x kk.toNat
  | .addImm x kk => encXKK 0x7 x kk.toNat
  | .ldReg x y => encXYN 0x8 x y 0x0
  | .or x y => encXYN 0x8 x y 0x1
  | .and x y => encXYN 0x8 x y 0x2
  | .xor x y => encXYN 0x8 x y 0x3
  | .addReg x y => encXYN 0x8 x y 0x4
  | .sub x y => encXYN 0x8 x y 0x5
  | .shr x y => encXYN 0x8 x y 0x6
  | .subn x y => encXYN 0x8 x y 0x7
  | .shl x y => encXYN 0x8 x y 0xE
  | .sneReg x y => encXYN 0x9 x y 0x0
  | .ldI nnn => encNNN 0xA nnn
  | .jpR0 nnn => encNNN 0xB nnn
  | .rnd x kk => encXKK 0xC x kk.toNat
  | .drw x y n => encXYN 0xD x y n
  | .skp x => encXKK 0xE x 0x9E
  | .sknp x => encXKK 0xE x 0xA1
  | .ldRDt x => encXKK 0xF x 0x07
  | .ldRK x => encXKK 0xF x 0x0A
  | .ldDt x => encXKK 0xF x 0x15
  | .ldSt x => encXKK 0xF x 0x18
  | .addI x => encXKK 0xF x 0x1E
  | .ldF x => encXKK 0xF x 0x29
  | .ldB x => encXKK 0xF x 0x33
  | .stRegs x => encXKK 0xF x 0x55
  | .ldRegs x => encXKK 0xF x 0x65

end Sys2Proof
end

