-- ==== Sys2Proof/Machine/Memory.lean ====
section
/-! DEFINITION. The flat byte memory (spec 20_memory.md): its reset contents, the one-byte accesses
`MemRead` and `MemWrite` (00_scope.md R13), their canonical form, block accesses, and the
big-endian instruction fetch (R45, R47). -/

namespace Sys2Proof.Machine

/-! ## Reset contents -/

/-- The five rows of the glyph of a hexadecimal digit, top row first (R40). PRESUMED by the spec
itself: the source does not list the bytes (notes/assumptions/8.md). -/
def glyph : Nat → List Byte
  | 0x0 => [0xF0, 0x90, 0x90, 0x90, 0xF0]
  | 0x1 => [0x20, 0x60, 0x20, 0x20, 0x70]
  | 0x2 => [0xF0, 0x10, 0xF0, 0x80, 0xF0]
  | 0x3 => [0xF0, 0x10, 0xF0, 0x10, 0xF0]
  | 0x4 => [0x90, 0x90, 0xF0, 0x10, 0x10]
  | 0x5 => [0xF0, 0x80, 0xF0, 0x10, 0xF0]
  | 0x6 => [0xF0, 0x80, 0xF0, 0x90, 0xF0]
  | 0x7 => [0xF0, 0x10, 0x20, 0x40, 0x40]
  | 0x8 => [0xF0, 0x90, 0xF0, 0x90, 0xF0]
  | 0x9 => [0xF0, 0x90, 0xF0, 0x10, 0xF0]
  | 0xA => [0xF0, 0x90, 0xF0, 0x90, 0x90]
  | 0xB => [0xE0, 0x90, 0xE0, 0x90, 0xE0]
  | 0xC => [0xF0, 0x80, 0x80, 0x80, 0xF0]
  | 0xD => [0xE0, 0x90, 0x90, 0x90, 0xE0]
  | 0xE => [0xF0, 0x80, 0xF0, 0x80, 0xF0]
  | 0xF => [0xF0, 0x80, 0xF0, 0x80, 0x80]
  | _ => []

/-- What an unlisted address reads as: the font at 0x000..0x04F, glyph `d` at `5*d` (R40), and 0x00
above it (10_state.md R34). -/
def resetByte (a : Nat) : Byte := (glyph (a / 5)).getD (a % 5) 0x00

/-! ## One byte -/

/-- The byte at an address of a cell list. -/
def Memory.lookup (a : Nat) : Memory → Byte
  | [] => resetByte a
  | (b, v) :: m => if b = a then v else Memory.lookup a m

/-- The listing of one byte: nothing when it is what an unlisted address reads as. -/
def Memory.cell (a : Nat) (v : Byte) : Memory := if v = resetByte a then [] else [(a, v)]

/-- Put a byte into a cell list, keeping the addresses rising. -/
def Memory.put (a : Nat) (v : Byte) : Memory → Memory
  | [] => Memory.cell a v
  | (b, u) :: m =>
    if a < b then Memory.cell a v ++ (b, u) :: m
    else if a = b then Memory.cell a v ++ m
    else (b, u) :: Memory.put a v m

/-- `MemRead(addr, 1)` (00_scope.md R13). Every 12-bit address exists and a read has no side effect
(R38, R49). -/
def Memory.read (m : Memory) (a : Addr) : Byte := Memory.lookup a.toNat m

/-- `MemWrite(addr, 1, v)` (00_scope.md R13). The font is ordinary writable memory (R41). -/
def Memory.write (m : Memory) (a : Addr) (v : Byte) : Memory := Memory.put a.toNat v m

/-- The canonical form: addresses rise strictly, all exist (R38), and no cell holds what an unlisted
address reads as. Equal memories are then equal lists. -/
abbrev Memory.wf (m : Memory) : Prop :=
  m.Pairwise (fun c d => c.1 < d.1) ∧ ∀ c ∈ m, c.1 < 0x1000 ∧ c.2 ≠ resetByte c.1

/-! ## Addresses and blocks -/

/-- `A12(v) = v mod 0x1000` (R44). -/
def A12 (v : Nat) : Addr := BitVec.ofNat 12 v

/-- The effective address of byte `k` of an access at `base`: `A12(base + k)` (R44, R97). -/
def dataAddr (base : Addr) (k : Nat) : Addr := A12 (base.toNat + k)

/-- Store bytes at consecutive addresses, `A12(base + k)` first, in increasing order (R46). -/
def Memory.writeBlock (base : Addr) : Nat → List Byte → Memory → Memory
  | _, [], m => m
  | k, v :: vs, m => Memory.writeBlock base (k + 1) vs (m.write (dataAddr base k) v)

/-! ## Instruction fetch -/

/-- The memory address of a program counter that passes the fetch check: the counter itself, which
is at most 0xFFF (R47). -/
def fetchAddr (pc : Word) : Addr := pc.setWidth 12

/-- The big-endian word at `pc` and `pc + 1` (R45, R47). -/
def Memory.wordAt (m : Memory) (pc : Word) : Word :=
  wordOfBytes (m.read (fetchAddr pc)) (m.read (fetchAddr (pc + 1)))

/-- Store a word at `pc` and `pc + 1` in fetch order. -/
def Memory.placeWord (m : Memory) (pc : Word) (w : Word) : Memory :=
  (m.write (fetchAddr pc) (highByte w)).write (fetchAddr (pc + 1)) (lowByte w)

/-- Fetch (R47): the fault `ProgramCounterOutOfRange` when `pc > 0xFFE`, else the opcode word. -/
def fetch (s : State) : Except Fault Word :=
  if s.pc > 0xFFE then .error (.programCounterOutOfRange s.pc) else .ok (s.mem.wordAt s.pc)

end Sys2Proof.Machine
end

