-- ==== Sys2Proof/Machine/Operands.lean ====
section
/-! DEFINITION. Every operand form of the instruction set (spec 30_encoding.md R59,
42_index_memory.md R97): registers read at the start of the execute phase (00_scope.md R14),
zero-extended addresses, the shift source, key operands and sprite bytes. -/

namespace Sys2Proof.Machine

/-- `R[r]` (R12). -/
def State.reg (s : State) (r : Reg) : Byte := s.R.get r

/-- `mem[a]` (R38). -/
def State.byte (s : State) (a : Addr) : Byte := s.mem.read a

/-- A 12-bit absolute address as a program counter value, `zext_16(nnn)` (R59, R70). -/
def zext16 (nnn : Addr) : Word := nnn.setWidth 16

/-- The target of `Bnnn`, `zext_16(nnn) + zext_16(R[0])`, not reduced to 12 bits (R76). -/
def jumpPlus (nnn : Addr) (r0 : Byte) : Word := zext16 nnn + r0.setWidth 16

/-- The value that `8xy6` and `8xyE` shift: `vy` with the legacy quirk, else `vx` (R6, R86, R88). -/
def shiftSource (quirk : Bool) (vx vy : Byte) : Byte := if quirk then vy else vx

/-- `Key(k)` for a key index held in a register; an index above 0xF names no key and counts as up
(R29, R105, R106; D10). -/
def keyDown (keys : Word) (v : Byte) : Bool := decide (v.toNat ≤ 0x0F) && keys.getLsbD v.toNat

/-- `min { k in 0..15 | Key(k) = 1 }`, none when no key is down (R108). -/
def lowestKey (keys : Word) : Option Nat := (List.range 16).find? fun k => keys.getLsbD k

/-- The decimal digits of a byte: hundreds, tens, ones (R94). -/
def bcd (v : Byte) : List Byte :=
  [BitVec.ofNat 8 (v.toNat / 100), BitVec.ofNat 8 (v.toNat / 10 % 10), BitVec.ofNat 8 (v.toNat % 10)]

/-- `n` bytes from `A12(base)` up, each at `A12(base + k)` (R46, R100). -/
def State.bytesFrom (s : State) (base : Addr) (n : Nat) : List Byte :=
  (List.range n).map fun k => s.byte (dataAddr base k)

/-- `R0..Rx` in increasing order (R95). -/
def State.regsUpTo (s : State) (x : Reg) : List Byte := s.R.toList.take (x.val + 1)

end Sys2Proof.Machine
end

