-- ==== Sys2Proof/Machine/Ops.lean ====
section
/-! DEFINITION. The named operations the meanings are written over: register, program counter,
stack, memory, display and timer writes, the entry of a fault, and the phases of a step that are
not an instruction's own. -/

namespace Sys2Proof.Machine

/-- What a step or a meaning answers. -/
abbrev Result := Host.Outcome State Fault Refusal

/-! ## Registers -/

/-- `R[r] <- v` (00_scope.md R12). No register is hardwired (10_state.md R19). -/
def State.setReg (s : State) (r : Reg) (v : Byte) : State := { s with R := s.R.set r.val v }

/-- A result and then a flag, in the listed order: the flag is the later write, so it stays when
`r` is `RF` (R14, D13; 41_alu.md R84, R85, R87). -/
def State.setRegThenFlag (s : State) (r : Reg) (v flag : Byte) : State :=
  (s.setReg r v).setReg RF flag

/-- A flag and then a result, in the listed order: the result is the later write, so it stays when
`r` is `RF` (R14, D13; 41_alu.md R86, R88). -/
def State.setFlagThenReg (s : State) (r : Reg) (v flag : Byte) : State :=
  (s.setReg RF flag).setReg r v

/-- `I <- a` (10_state.md R22). -/
def State.setI (s : State) (a : Addr) : State := { s with I := a }

/-- `R[k] <- v_k` for `k` in `0..x`, from the bytes at `A12(I + k)` (42_index_memory.md R96). -/
def State.loadRegs (s : State) (x : Reg) : State :=
  { s with R := Vector.ofFn fun k => if k ≤ x then s.byte (dataAddr s.I k.val) else s.reg k }

/-! ## Program counter -/

/-- `pc <- target` (R12). -/
def State.jump (s : State) (target : Word) : State := { s with pc := target }

/-- Skip the next instruction, `pc <- pc + 2`, when a condition holds (40_control.md R72 to R75). -/
def State.skipIf (s : State) (c : Bool) : State := if c then { s with pc := s.pc + 2 } else s

/-- `pc <- pc - 2`: the same instruction runs again next step (44_timer_input.md R108). -/
def State.rewind (s : State) : State := { s with pc := s.pc - 2 }

/-- The address `pc_f` of the instruction whose execute phase runs: `pc` holds `pc_f + 2` then
(10_state.md R21). -/
def State.pcF (s : State) : Word := s.pc - 2

/-! ## Call stack -/

/-- `stack[sp] <- pc; sp <- sp + 1` on a stack that is not full (10_state.md R24). -/
def State.push (s : State) (h : s.sp.val < 16) : State :=
  { s with stack := s.stack.set s.sp.val s.pc, sp := ⟨s.sp.val + 1, by omega⟩ }

/-- The top entry of a stack that is not empty: `stack[sp - 1]`. -/
def State.top (s : State) (h : 0 < s.sp.val) : Word := s.stack[s.sp.val - 1]'(by omega)

/-- `sp <- sp - 1; pc <- stack[sp]` on a stack that is not empty (R24). The entry keeps its value. -/
def State.pop (s : State) (h : 0 < s.sp.val) : State :=
  { s with pc := s.top h, sp := ⟨s.sp.val - 1, by omega⟩ }

/-! ## Memory, display, timers -/

/-- Store bytes at `A12(I)`, `A12(I + 1)`, … (R94, R95). -/
def State.storeAtI (s : State) (vs : List Byte) : State :=
  { s with mem := s.mem.writeBlock s.I 0 vs }

/-- Every cell dark and `redraw` true (43_display.md R99). -/
def State.clearDisplay (s : State) : State := { s with pix := Display.blank, redraw := true }

/-- The display of a finished blit, its collision in `RF`, and `redraw` true (R100, R104). -/
def State.endBlit (s : State) (z : Blit) : State :=
  { s.setReg RF (collision z.hit) with pix := z.pix, redraw := true }

/-- `DT <- v` (44_timer_input.md R109). -/
def State.setDT (s : State) (v : Byte) : State := { s with DT := v }

/-- `ST <- v` (R110). -/
def State.setST (s : State) (v : Byte) : State := { s with ST := v }

/-- `t` ticks of a counter: `max(0, v - t)` (60_exceptions.md R126). -/
def countDown (v : Byte) (t : Nat) : Byte := BitVec.ofNat 8 (v.toNat - t)

/-- The ticks due in a step with input `dt` (R126). -/
def State.ticksDue (s : State) (dt : Nat) : Nat := (s.tickAcc + dt) / s.cfg.tickUnits

/-- The end-of-step timer update (R126). -/
def State.timerUpdate (s : State) (dt : Nat) : State :=
  { s with
    tickAcc := (s.tickAcc + dt) % s.cfg.tickUnits
    DT := countDown s.DT (s.ticksDue dt)
    ST := countDown s.ST (s.ticksDue dt) }

/-! ## Faults -/

/-- Taking a fault, the machine's only exception (60_exceptions.md R118, R119): the record is
written and nothing else. There is no vector, no saved pc and no handler; a machine with a record is
halted (R120). Nothing returns from a fault (R121): only the host's reset clears the record. -/
def State.takeFault (s : State) (f : Fault) : State := { s with fault := some f }

/-- `raise Fault(kind, info)`: the step ends with the fault (00_scope.md R13). The state it leaves is
`takeFault` of the state before the step (`hostStep` in Machine/HostOps.lean). -/
def raise (f : Fault) : Result := .fault f

/-! ## Entering the execute phase -/

/-- The state an instruction's execute phase starts from: fetch has set `pc <- pc_f + 2`
(20_memory.md R47), and the step's draw is in place (R8). -/
def State.enter (s : State) (rnd : Byte) : State :=
  { s with pc := s.pc + 2, rnd := rnd, stepNo := s.stepNo + 1 }

end Sys2Proof.Machine
end

