-- ==== Sys2Proof/Machine/Alu.lean ====
section
/-! DEFINITION. Register loads, arithmetic and logic (spec 41_alu.md R78 to R89). Operands are the
values before any write, and a later write to `RF` wins (00_scope.md R14). -/

namespace Sys2Proof.Machine

/-- `6xkk` LD (R78). -/
def execLdImm (x : Reg) (kk : Byte) (s : State) : Result := .next (s.setReg x kk)

/-- `7xkk` ADD (R79): no flag. -/
def execAddImm (x : Reg) (kk : Byte) (s : State) : Result := .next (s.setReg x (add8 (s.reg x) kk))

/-- `8xy0` LD (R80). -/
def execLdReg (x y : Reg) (s : State) : Result := .next (s.setReg x (s.reg y))

/-- `8xy1` OR (R81): `RF` is not reset. -/
def execOr (x y : Reg) (s : State) : Result := .next (s.setReg x (s.reg x ||| s.reg y))

/-- `8xy2` AND (R82). -/
def execAnd (x y : Reg) (s : State) : Result := .next (s.setReg x (s.reg x &&& s.reg y))

/-- `8xy3` XOR (R83). -/
def execXor (x y : Reg) (s : State) : Result := .next (s.setReg x (s.reg x ^^^ s.reg y))

/-- `8xy4` ADD (R84). -/
def execAddReg (x y : Reg) (s : State) : Result :=
  .next (s.setRegThenFlag x (add8 (s.reg x) (s.reg y)) (carry (s.reg x) (s.reg y)))

/-- `8xy5` SUB (R85). -/
def execSub (x y : Reg) (s : State) : Result :=
  .next (s.setRegThenFlag x (sub8 (s.reg x) (s.reg y)) (noBorrow (s.reg x) (s.reg y)))

/-- `8xy6` SHR (R86): the flag is written before the result. -/
def execShr (x y : Reg) (s : State) : Result :=
  let v := shiftSource s.cfg.legacyShiftQuirk (s.reg x) (s.reg y)
  .next (s.setFlagThenReg x (shiftRight1 v) (shiftedOutRight v))

/-- `8xy7` SUBN (R87). -/
def execSubn (x y : Reg) (s : State) : Result :=
  .next (s.setRegThenFlag x (sub8 (s.reg y) (s.reg x)) (noBorrow (s.reg y) (s.reg x)))

/-- `8xyE` SHL (R88): the flag is written before the result. -/
def execShl (x y : Reg) (s : State) : Result :=
  let v := shiftSource s.cfg.legacyShiftQuirk (s.reg x) (s.reg y)
  .next (s.setFlagThenReg x (shiftLeft1 v) (shiftedOutLeft v))

/-- `Cxkk` RND (R89): the step's draw AND the immediate. -/
def execRnd (x : Reg) (kk : Byte) (s : State) : Result := .next (s.setReg x (s.rnd &&& kk))

end Sys2Proof.Machine
end

