-- ==== Sys2Proof/Machine/Control.lean ====
section
/-! DEFINITION. Control transfer and skips (spec 40_control.md R69 to R76). On entry `pc = pc_f + 2`
(20_memory.md R47). -/

namespace Sys2Proof.Machine

/-- `00EE` RET (R69). -/
def execRet (s : State) : Result :=
  if h : 0 < s.sp.val then .next (s.pop h) else raise (.stackUnderflow s.pcF)

/-- `1nnn` JP (R70). -/
def execJp (nnn : Addr) (s : State) : Result := .next (s.jump (zext16 nnn))

/-- `2nnn` CALL (R71). -/
def execCall (nnn : Addr) (s : State) : Result :=
  if h : s.sp.val < 16 then .next ((s.push h).jump (zext16 nnn)) else raise (.stackOverflow s.pcF)

/-- `3xkk` SE (R72). -/
def execSeImm (x : Reg) (kk : Byte) (s : State) : Result := .next (s.skipIf (s.reg x == kk))

/-- `4xkk` SNE (R73). -/
def execSneImm (x : Reg) (kk : Byte) (s : State) : Result := .next (s.skipIf (s.reg x != kk))

/-- `5xy0` SE (R74). -/
def execSeReg (x y : Reg) (s : State) : Result := .next (s.skipIf (s.reg x == s.reg y))

/-- `9xy0` SNE (R75). -/
def execSneReg (x y : Reg) (s : State) : Result := .next (s.skipIf (s.reg x != s.reg y))

/-- `Bnnn` JP R0 (R76). -/
def execJpR0 (nnn : Addr) (s : State) : Result := .next (s.jump (jumpPlus nnn (s.reg R0)))

end Sys2Proof.Machine
end

