-- ==== Sys2Proof/Machine/Draw.lean ====
section
/-! DEFINITION. Clear and sprite blit (spec 43_display.md R99, R100). -/

namespace Sys2Proof.Machine

/-- `00E0` CLS (R99). -/
def execCls (s : State) : Result := .next s.clearDisplay

/-- `Dxyn` DRW (R100): `n` row bytes from `A12(I)` up, drawn at `(Rx, Ry)`, the coordinates read
before `RF` is written. -/
def execDrw (x y : Reg) (n : Nat) (s : State) : Result :=
  .next (s.endBlit (s.pix.blit (s.reg x).toNat (s.reg y).toNat (s.bytesFrom s.I n)))

end Sys2Proof.Machine
end

