-- ==== Sys2Proof/Machine/Index.lean ====
section
/-! DEFINITION. Index register, font, BCD and block transfer (spec 42_index_memory.md R91 to R96).
Every data address and every write of `I` is reduced to 12 bits. -/

namespace Sys2Proof.Machine

/-- `Annn` LD I (R91). -/
def execLdI (nnn : Addr) (s : State) : Result := .next (s.setI nnn)

/-- `Fx1E` ADD I (R92): no flag. -/
def execAddI (x : Reg) (s : State) : Result := .next (s.setI (dataAddr s.I (s.reg x).toNat))

/-- `Fx29` LD F (R93): `Rx` is not reduced to its low nibble. -/
def execLdF (x : Reg) (s : State) : Result := .next (s.setI (A12 ((s.reg x).toNat * 5)))

/-- `Fx33` LD B (R94). -/
def execLdB (x : Reg) (s : State) : Result := .next (s.storeAtI (bcd (s.reg x)))

/-- `Fx55` LD [I] (R95): `I` is incremented. -/
def execStRegs (x : Reg) (s : State) : Result :=
  .next ((s.storeAtI (s.regsUpTo x)).setI (dataAddr s.I (x.val + 1)))

/-- `Fx65` LD Rx, [I] (R96): `I` is incremented. -/
def execLdRegs (x : Reg) (s : State) : Result :=
  .next ((s.loadRegs x).setI (dataAddr s.I (x.val + 1)))

end Sys2Proof.Machine
end

