-- ==== Sys2Proof/Machine/TimerInput.lean ====
section
/-! DEFINITION. Key tests, key wait and timer access (spec 44_timer_input.md R105 to R110). The timer
values are those before the step's own timer update. -/

namespace Sys2Proof.Machine

/-- `Ex9E` SKP (R105). -/
def execSkp (x : Reg) (s : State) : Result := .next (s.skipIf (keyDown s.keys (s.reg x)))

/-- `ExA1` SKNP (R106). -/
def execSknp (x : Reg) (s : State) : Result := .next (s.skipIf (!keyDown s.keys (s.reg x)))

/-- `Fx07` LD Rx, DT (R107). -/
def execLdRDt (x : Reg) (s : State) : Result := .next (s.setReg x s.DT)

/-- `Fx0A` LD Rx, K (R108): with no key down the instruction runs again next step. -/
def execLdRK (x : Reg) (s : State) : Result :=
  match lowestKey s.keys with
  | none => .next s.rewind
  | some k => .next (s.setReg x (BitVec.ofNat 8 k))

/-- `Fx15` LD DT, Rx (R109). -/
def execLdDt (x : Reg) (s : State) : Result := .next (s.setDT (s.reg x))

/-- `Fx18` LD ST, Rx (R110). -/
def execLdSt (x : Reg) (s : State) : Result := .next (s.setST (s.reg x))

end Sys2Proof.Machine
end

