-- ==== Sys2Proof/Machine/Cycle.lean ====
section
/-! DEFINITION. One cycle of the machine, `step(dt, rnd)` (spec 70_reset_and_hazards.md R141), and
the placing of a word where the next fetch reads it. -/

namespace Sys2Proof.Machine

/-- The last phase: the timer update, after an execute phase that did not fault (60_exceptions.md
R126). -/
def finish (dt : Nat) : Result → Result
  | .next t => .next (t.timerUpdate dt)
  | .fault f => .fault f
  | .refused r => .refused r

/-- `step(dt, rnd)` up to its result (R141): the recorded fault of a halted machine (R120), else
fetch, decode, execute and timer update, with the checks in the order of R117. -/
def cycle (dt : Nat) (rnd : Byte) (s : State) : Result :=
  match s.fault with
  | some f => .fault f
  | none =>
    match fetch s with
    | .error f => .fault f
    | .ok w =>
      match decode w with
      | .error _ => .fault (.invalidOpcode w s.pc)
      | .ok i => finish dt (exec i (s.enter rnd))

/-- A state whose next step fetches the word `w`: the word is stored at `pc` and `pc + 1`. A halted
machine fetches nothing and a `pc` above 0xFFE cannot be fetched from, so the record is cleared and
such a `pc` is set to the load address 0x200. -/
def State.placeAtPc (s : State) (w : Word) : State :=
  let pc := if s.pc > 0xFFE then 0x200 else s.pc
  { s with pc := pc, fault := none, mem := s.mem.placeWord pc w }

end Sys2Proof.Machine
end

