-- ==== Sys2Proof/Machine/Step.lean ====
section
/-! DEFINITION. One step of the machine as the host's interface has it: the cycle of
Machine/Cycle.lean on the step's free inputs. -/

namespace Sys2Proof.Machine

/-- One `step(dt, rnd)` (spec R141) whose inputs are the free values of its number. -/
def step (s : State) : Host.Outcome State Fault Refusal :=
  cycle (Config.dtAt s.stepNo) (Config.rndAt s.stepNo) s

/-- The state whose very next step fetches and runs the instruction whose opcode-table bits are `w`.
It stands for the host's load of a program (R139). -/
def State.withFetchWord (s : State) (nbits w : Nat) : State := s.placeAtPc (tableWord nbits w)

end Sys2Proof.Machine
end

