-- ==== Sys2Proof/Machine/HostOps.lean ====
section
/-! DEFINITION. The host operations, the machine's only ports (spec 60_exceptions.md R131): reset,
load, key writes, steps with their inputs, redraw clear and the three reads. Each runs to
completion between steps. -/

namespace Sys2Proof.Machine

/-- The error numbers of R111 (labels only, D6). -/
def Fault.code : Fault → Nat
  | .invalidOpcode _ _ => 1
  | .programCounterOutOfRange _ => 2
  | .stackOverflow _ => 3
  | .stackUnderflow _ => 4

/-- The address a fault record holds (R31, R111). -/
def Fault.pc : Fault → Word
  | .invalidOpcode _ pc => pc
  | .programCounterOutOfRange pc => pc
  | .stackOverflow pc => pc
  | .stackUnderflow pc => pc

/-- The word a fault record holds: only `InvalidOpcode` has one (R31). -/
def Fault.word : Fault → Option Word
  | .invalidOpcode w _ => some w
  | .programCounterOutOfRange _ => none
  | .stackOverflow _ => none
  | .stackUnderflow _ => none

/-- The number of the load-time error `RomTooLarge` (R111). -/
def romTooLargeCode : Nat := 5

/-- The largest program, `4096 - 0x200 = 3584` bytes (20_memory.md R43). -/
def maxProgram : Nat := 3584

/-- A host operation with its inputs (R131). -/
inductive HostOp where
  | reset
  | load (bytes : List Byte)
  | setKeys (mask : Word)
  | step (dt : Nat) (rnd : Byte)
  | readDisplay
  | clearRedraw
  | readSound
  | readFault
  deriving DecidableEq, Repr

/-- What a host operation gives back (R131). -/
inductive HostResult where
  /-- The operation has no result. -/
  | nothing
  /-- A load or a step that succeeded. -/
  | ok
  /-- The load-time error (R116). -/
  | romTooLarge
  /-- A step on which the machine halts, or of a halted machine (R118, R120). -/
  | faulted (f : Fault)
  /-- A step refused by the model; none is (Obligations.OnlyCallAndReturnFaultInTheExecutePhase). -/
  | refused (r : Refusal)
  /-- All cells and the redraw flag (R129). -/
  | display (pix : Display) (redraw : Bool)
  /-- `ST` and `sound_active = (ST != 0)` (R128). -/
  | sound (st : Byte) (active : Bool)
  /-- The fault record (R118). -/
  | record (f : Option Fault)
  deriving DecidableEq, Repr

/-- Reset (R136): every element at its reset value. The parameters and the model's own step number,
which are no state of the spec's, are kept: a repeated reset does not repeat the free draws. -/
def State.hostReset (s : State) : State :=
  { State.reset with cfg := s.cfg, stepNo := s.stepNo }

/-- The load of a program that fits (R139): its bytes from 0x200 up, and nothing else. -/
def State.hostLoad (s : State) (bytes : List Byte) : State :=
  { s with mem := s.mem.writeBlock 0x200 0 bytes }

/-- The state after a cycle's outcome and what the host is given (R141): a fault leaves the state
before the step with the record added (R118, R119). -/
def settle (s : State) : Result → State × HostResult
  | .next t => (t, .ok)
  | .fault f => (s.takeFault f, .faulted f)
  | .refused r => (s, .refused r)

/-- `step(dt, rnd)` with the state it leaves (R141). -/
def hostStep (dt : Nat) (rnd : Byte) (s : State) : State × HostResult := settle s (cycle dt rnd s)

/-- One host operation: the state after it and its result (R131). -/
def HostOp.run (o : HostOp) (s : State) : State × HostResult :=
  match o with
  | .reset => (s.hostReset, .nothing)
  | .load bytes =>
    if bytes.length > maxProgram then (s, .romTooLarge) else (s.hostLoad bytes, .ok)
  | .setKeys mask => ({ s with keys := mask }, .nothing)
  | .step dt rnd => hostStep dt rnd s
  | .readDisplay => (s, .display s.pix s.redraw)
  | .clearRedraw => ({ s with redraw := false }, .nothing)
  | .readSound => (s, .sound s.ST (s.ST != 0x00))
  | .readFault => (s, .record s.fault)

/-- The state after a sequence of host operations, in order: any use of the machine (R132). -/
def session : List HostOp → State → State
  | [], s => s
  | o :: os, s => session os (o.run s).1

end Sys2Proof.Machine
end

