-- ==== Sys2Proof/Safety.lean ====
section
/-! DEFINITION. The terms the claims are stated in: the invariant of every reachable state (spec
10_state.md R36), the parts of the state and which of them an instruction writes (00_scope.md R15,
10_state.md R35), the cells a sprite lights, and runs of steps with their inputs. -/

namespace Sys2Proof.Machine

/-! ## The invariant -/

/-- What holds of every reachable state (R36). The bounds on `sp`, `I`, `R`, `DT` and `ST` are in
their types. That every stack entry is at most 0x1000 is what makes `pc ≤ 0x10FE` inductive: a call
pushes `pc_f + 2` and a return puts it back in `pc`. -/
structure State.Inv (s : State) : Prop where
  memoryCanonical : s.mem.wf
  pcBound : s.pc.toNat ≤ 0x10FE
  stackBound : ∀ j : Fin 16, (s.stack.get j).toNat ≤ 0x1000
  tickUnitsPositive : 1 ≤ s.cfg.tickUnits
  tickAccBound : s.tickAcc < s.cfg.tickUnits

/-! ## Parts of the state and frames -/

/-- One piece of the state, as small as an instruction can write it. -/
inductive StatePart where
  | reg (r : Reg)
  | pc
  | index
  | sp
  | entry (j : Fin 16)
  | delay
  | sound
  | byte (a : Addr)
  | cell (col row : Nat)
  | redraw
  | keys
  | tickAcc
  | fault
  | cfg
  | rnd
  | stepNo
  deriving DecidableEq, Repr

/-- A part has the same value in two states. -/
def StatePart.same (p : StatePart) (s t : State) : Prop :=
  match p with
  | .reg r => t.reg r = s.reg r
  | .pc => t.pc = s.pc
  | .index => t.I = s.I
  | .sp => t.sp = s.sp
  | .entry j => t.stack.get j = s.stack.get j
  | .delay => t.DT = s.DT
  | .sound => t.ST = s.ST
  | .byte a => t.byte a = s.byte a
  | .cell col row => t.pix.get col row = s.pix.get col row
  | .redraw => t.redraw = s.redraw
  | .keys => t.keys = s.keys
  | .tickAcc => t.tickAcc = s.tickAcc
  | .fault => t.fault = s.fault
  | .cfg => t.cfg = s.cfg
  | .rnd => t.rnd = s.rnd
  | .stepNo => t.stepNo = s.stepNo

/-- Every part outside `W` keeps its value. -/
def UnchangedOutside (W : StatePart → Prop) (s t : State) : Prop := ∀ p, ¬ W p → p.same s t

/-- The cell `(col, row)` of the grid is one that an `n`-row sprite at `(cx, cy)` has a 1 bit for,
where `bytes r` is its row byte `r` and bit 7 is the leftmost (43_display.md R100 to R102). -/
def spriteLit (bytes : Nat → Byte) (n cx cy col row : Nat) : Bool :=
  decide (cx ≤ col ∧ col < cx + 8 ∧ cy ≤ row ∧ row < cy + n ∧ col ≤ 63 ∧ row ≤ 31) &&
    (bytes (row - cy)).getLsbD (7 - (col - cx))

/-- The sprite row byte `r` that `Dxyn` reads: the byte at `A12(I + r)` (R100). -/
def State.spriteByte (s : State) (r : Nat) : Byte := s.byte (dataAddr s.I r)

/-- The parts an instruction's execute phase may write from state `s`, from the rules of 40_control.md
to 44_timer_input.md and the table of R35. Memory bytes are named by the address the instruction
computes, cells by the sprite. -/
def mayWrite (i : Instr) (s : State) (p : StatePart) : Prop :=
  match i with
  | .cls => p = .redraw ∨ ∃ col row, p = .cell col row
  | .ret => p = .pc ∨ p = .sp
  | .jp _ | .jpR0 _ => p = .pc
  | .call _ => p = .pc ∨ p = .sp ∨ ∃ j : Fin 16, j.val = s.sp.val ∧ p = .entry j
  | .seImm x kk => s.reg x = kk ∧ p = .pc
  | .sneImm x kk => s.reg x ≠ kk ∧ p = .pc
  | .seReg x y => s.reg x = s.reg y ∧ p = .pc
  | .sneReg x y => s.reg x ≠ s.reg y ∧ p = .pc
  | .ldImm x _ | .addImm x _ | .rnd x _ | .ldRDt x => p = .reg x
  | .ldReg x _ | .or x _ | .and x _ | .xor x _ => p = .reg x
  | .addReg x _ | .sub x _ | .shr x _ | .subn x _ | .shl x _ => p = .reg x ∨ p = .reg RF
  | .ldI _ | .addI _ | .ldF _ => p = .index
  | .drw x y n => p = .reg RF ∨ p = .redraw ∨ ∃ col row, p = .cell col row ∧
      spriteLit s.spriteByte n (s.reg x).toNat (s.reg y).toNat col row = true
  | .skp x => keyDown s.keys (s.reg x) = true ∧ p = .pc
  | .sknp x => keyDown s.keys (s.reg x) = false ∧ p = .pc
  | .ldRK x => (s.keys = 0 ∧ p = .pc) ∨ (s.keys ≠ 0 ∧ p = .reg x)
  | .ldDt _ => p = .delay
  | .ldSt _ => p = .sound
  | .ldB _ => ∃ k < 3, p = .byte (dataAddr s.I k)
  | .stRegs x => p = .index ∨ ∃ k ≤ x.val, p = .byte (dataAddr s.I k)
  | .ldRegs x => p = .index ∨ ∃ k : Reg, k ≤ x ∧ p = .reg k

/-- The parts that a step writes beside its instruction: `pc` by the fetch (20_memory.md R47), the
timers and their accumulator by the timer update (60_exceptions.md R126), and the model's own two. -/
def stepWrites (p : StatePart) : Prop :=
  p = .pc ∨ p = .delay ∨ p = .sound ∨ p = .tickAcc ∨ p = .rnd ∨ p = .stepNo

/-! ## Outcomes and runs -/

/-- Change the state of an outcome that is a next state. -/
def mapNext (f : State → State) : Result → Result
  | .next t => .next (f t)
  | .fault e => .fault e
  | .refused r => .refused r

/-- Steps with the inputs `(dt, rnd)` in turn, none of them faulting: the state they lead to and the
number of ticks they apply (60_exceptions.md R125). -/
def runSteps : List (Nat × Byte) → State → Option (State × Nat)
  | [], s => some (s, 0)
  | (dt, rnd) :: ins, s =>
    match cycle dt rnd s with
    | .next t => (runSteps ins t).map fun r => (r.1, s.ticksDue dt + r.2)
    | .fault _ => none
    | .refused _ => none

/-- The states that host operations lead to from a machine just reset, whatever its parameters. -/
def Reachable (t : State) : Prop :=
  ∃ (c : Config) (os : List HostOp), 1 ≤ c.tickUnits ∧ t = session os { State.reset with cfg := c }

end Sys2Proof.Machine
end

