-- ==== Sys2Proof/Certificates/Slice0/Obligations.lean ====
section
/-! DEFINITION. The statements for the provers. Statements about `exec` are about the execute phase,
which starts from the state after the fetch (`pc = pc_f + 2`); StepRunsTheDecodedInstruction carries
them to a step. -/

open Sys2Proof Sys2Proof.Machine

/-! ## Encoding -/

/-- Decoding the word of a well-formed instruction gives it back, with every operand (30_encoding.md
R57 to R61). -/
def Obligations.DecodeOfEncodeIsTheInstruction : Prop :=
  ∀ i : Instr, i.wf = true → decode (encode i) = .ok i

/-- Each word has one meaning: an instruction it decodes to is well formed and encodes to it (R60,
R61, R65). -/
def Obligations.EncodeOfDecodeIsTheWord : Prop :=
  ∀ (w : Word) (i : Instr), decode w = .ok i → i.wf = true ∧ encode i = w

/-- R61: a word is valid exactly when it matches one row of the opcode map, and it is then the
instruction of that row. -/
def Obligations.WordIsValidExactlyWhenOneRowFits : Prop :=
  ∀ w : Word,
    ((∃ i, decode w = .ok i) ↔
      ∃ row ∈ opcodeRows, row.fits w = true ∧ ∀ r ∈ opcodeRows, r.fits w = true → r = row) ∧
    ∀ i, decode w = .ok i → ∃ row ∈ opcodeRows, row.fits w = true ∧ row.mnemonic = i.mnemonic

/-- The invalid words of each family (30_encoding.md §4): the word is rejected, by name, exactly when
it is one of them. -/
def Obligations.InvalidWordsOfEachFamily : Prop :=
  ∀ w : Word,
    decode w = .error (.invalidOpcode w) ↔
      (fieldOp w = 0x0 ∧ w ≠ 0x00E0 ∧ w ≠ 0x00EE) ∨
      (fieldOp w = 0x5 ∧ fieldN w ≠ 0x0) ∨
      (fieldOp w = 0x8 ∧ fieldN w ∈ [0x8, 0x9, 0xA, 0xB, 0xC, 0xD, 0xF]) ∨
      (fieldOp w = 0x9 ∧ fieldN w ≠ 0x0) ∨
      (fieldOp w = 0xE ∧ fieldKKNat w ∉ [0x9E, 0xA1]) ∨
      (fieldOp w = 0xF ∧
        fieldKKNat w ∉ [0x07, 0x0A, 0x15, 0x18, 0x1E, 0x29, 0x33, 0x55, 0x65])

/-- Words written out from the encodings of R61 decode to the instructions they stand for. -/
def Obligations.SampleWordsDecode : Prop :=
  decode 0x00EE = .ok .ret ∧ decode 0x1ABC = .ok (.jp 0xABC) ∧
  decode 0x3A42 = .ok (.seImm 10 0x42) ∧ decode 0x8AB4 = .ok (.addReg 10 11) ∧
  decode 0x8FEE = .ok (.shl 15 14) ∧ decode 0xD12F = .ok (.drw 1 2 15) ∧
  decode 0xE9A1 = .ok (.sknp 9) ∧ decode 0xF365 = .ok (.ldRegs 3) ∧
  decode 0x0123 = .error (.invalidOpcode 0x0123)

/-! ## The step and its faults -/

/-- A step runs the decoded instruction: with no fault recorded, `pc` in range and the bytes at `pc`
decoding to `i`, the cycle is `exec i` from the state after the fetch, followed by the timer update
when it gives a next state; and `step` is the cycle on the free inputs of its number
(70_reset_and_hazards.md §2; notes/assumptions/1.md for the free inputs). That the timer update comes after
the execute phase, and not after a fault, is the spec's own choice (D16), and so is the fetch at an odd
`pc` (D18). -/
def Obligations.StepRunsTheDecodedInstruction : Prop :=
  ∀ (s : State) (i : Instr), s.fault = none → s.pc.toNat ≤ 0xFFE →
    decode (s.mem.wordAt s.pc) = .ok i →
    (∀ (dt : Nat) (rnd : Byte),
      (s.enter rnd).pc = s.pc + 2 ∧
      cycle dt rnd s = finish dt (exec i (s.enter rnd)) ∧
      ∀ t, exec i (s.enter rnd) = .next t → cycle dt rnd s = .next (t.timerUpdate dt)) ∧
    step s = cycle (Config.dtAt s.stepNo) (Config.rndAt s.stepNo) s

/-- The word that `withFetchWord` places is the one the very next step runs, from any state whose
memory is canonical. The model's own interface (notes/assumptions/29.md); the place of the timer update
(D16) and the fetch at an odd `pc` (D18) are the spec's own choices. -/
def Obligations.PlacedWordIsRunNext : Prop :=
  ∀ (s : State) (nbits w : Nat) (i : Instr), s.mem.wf → decodeTableWord nbits w = some i →
    step (s.withFetchWord nbits w) =
      finish (Config.dtAt s.stepNo)
        (exec i ((s.withFetchWord nbits w).enter (Config.rndAt s.stepNo)))

/-- A fetch at `pc > 0xFFE` faults; any other reads the bytes at `pc` and `pc + 1`, the first in bits
15:8, and `pc` is advanced by 2 before the execute phase (20_memory.md §4). That the record holds the
`pc` is the spec's own choice (D6, notes/assumptions/6.md), and so is that `pc` reaches 0x1000 without
reduction (D2, notes/assumptions/10.md) and that an odd `pc` is fetched from (D18, 21.md). -/
def Obligations.FetchIsBigEndianAndChecked : Prop :=
  ∀ (s : State) (rnd : Byte),
    (0xFFE < s.pc.toNat → fetch s = .error (.programCounterOutOfRange s.pc)) ∧
    (s.pc.toNat ≤ 0xFFE →
      ∃ w, fetch s = .ok w ∧
        w.toNat = (s.byte (BitVec.ofNat 12 s.pc.toNat)).toNat * 256 +
          (s.byte (BitVec.ofNat 12 (s.pc.toNat + 1))).toNat ∧
        (s.enter rnd).pc.toNat = s.pc.toNat + 2)

/-- A fetched word that matches no pattern faults with that word and the fetch address, in every step
whose fetch succeeds (60_exceptions.md §1). That an odd `pc` is fetched from is the spec's own choice
(D18, notes/assumptions/21.md). -/
def Obligations.InvalidOpcodeFaultsWithWordAndFetchAddress : Prop :=
  ∀ (dt : Nat) (rnd : Byte) (s : State), s.fault = none → s.pc.toNat ≤ 0xFFE →
    (∀ i, decode (s.mem.wordAt s.pc) ≠ .ok i) →
    cycle dt rnd s = .fault (.invalidOpcode (s.mem.wordAt s.pc) s.pc)

/-- `ProgramCounterOutOfRange` is raised by every fetch above 0xFFE, with the out-of-range value, and
by no instruction (60_exceptions.md §1; that the record holds the value is D6). -/
def Obligations.OutOfRangePcFaultsAtTheFetchOnly : Prop :=
  (∀ (dt : Nat) (rnd : Byte) (s : State), s.fault = none → 0xFFE < s.pc.toNat →
    cycle dt rnd s = .fault (.programCounterOutOfRange s.pc)) ∧
  ∀ (i : Instr) (s : State) (p : Word), exec i s ≠ .fault (.programCounterOutOfRange p)

/-- `2nnn` raises `StackOverflow` when 16 return addresses are on the stack, and `00EE` raises
`StackUnderflow` when the stack is empty (60_exceptions.md §1). That the record holds the instruction's
address is the spec's own choice (D6, notes/assumptions/6.md), that it is 2 below the `pc` of the execute
phase notes/assumptions/31.md, and that `sp` counts the addresses D8 (notes/assumptions/13.md). -/
def Obligations.StackBoundsAreFatal : Prop :=
  (∀ (nnn : Addr) (s : State), s.sp.val = 16 →
    exec (.call nnn) s = .fault (.stackOverflow (s.pc - 2))) ∧
  ∀ s : State, s.sp.val = 0 → exec .ret s = .fault (.stackUnderflow (s.pc - 2))

/-- No other condition faults in an execute phase (60_exceptions.md §1, §2), and nothing is refused: no
execute phase and no step. That the record holds the instruction's address is the spec's own choice (D6,
notes/assumptions/6.md), that it is 2 below the `pc` of the execute phase notes/assumptions/31.md, that
`sp` counts the addresses D8 (notes/assumptions/13.md), and that a data address wraps and a key index
above 0xF counts as up, without a fault, D4 and D10 (notes/assumptions/12.md, 15.md). -/
def Obligations.OnlyCallAndReturnFaultInTheExecutePhase : Prop :=
  (∀ (i : Instr) (s : State) (f : Fault), exec i s = .fault f →
    (i = .ret ∧ s.sp.val = 0 ∧ f = .stackUnderflow (s.pc - 2)) ∨
    ∃ nnn, i = .call nnn ∧ s.sp.val = 16 ∧ f = .stackOverflow (s.pc - 2)) ∧
  (∀ (i : Instr) (s : State) (r : Refusal), exec i s ≠ .refused r) ∧
  ∀ (s : State) (r : Refusal), step s ≠ .refused r

/-- Every instruction completes: its execute phase gives a next state unless it is a return on an
empty stack or a call on a full one. That nothing faults when `I`, a data address or a key index passes
its range is the spec's own choice (D3, D4, D10; notes/assumptions/11.md, 12.md, 15.md), and that `sp`
counts the return addresses D8 (notes/assumptions/13.md). -/
def Obligations.ExecutionCompletesUnlessTheStackFaults : Prop :=
  ∀ (i : Instr) (s : State), (i = .ret → s.sp.val ≠ 0) → (∀ nnn, i = .call nnn → s.sp.val ≠ 16) →
    ∃ t, exec i s = .next t

/-- A step on a halted machine returns the recorded fault again and changes nothing, the timers
included, whatever its inputs, and no host operation but reset clears the record (60_exceptions.md §2).
The spec's own choice (D5, notes/assumptions/5.md). -/
def Obligations.HaltedMachineStaysHalted : Prop :=
  ∀ (s : State) (f : Fault), s.fault = some f →
    step s = .fault f ∧
    (∀ (dt : Nat) (rnd : Byte), (HostOp.step dt rnd).run s = (s, .faulted f)) ∧
    ∀ o : HostOp, o ≠ .reset → (o.run s).1.fault = some f

/-- A step that faults commits no write other than the fault record. The spec's own choice (D5). -/
def Obligations.FaultingStepWritesOnlyTheRecord : Prop :=
  ∀ (dt : Nat) (rnd : Byte) (s t : State) (f : Fault), hostStep dt rnd s = (t, .faulted f) →
    t.fault = some f ∧ UnchangedOutside (· = .fault) s t ∧ t.stack = s.stack ∧ t.mem = s.mem

/-! ## Frames -/

/-- The frame rule: when an instruction's execute phase gives a next state, every part of the state
outside those its rule names keeps its value: every register, stack entry, memory byte and cell, `I`,
`pc`, `sp`, the timers, `redraw`, `keys`, `tick_acc` and the fault record. The addresses stored to are
the ones the meanings compute, `dataAddr s.I k`. The frame rule is the spec's own choice (D22), and `mayWrite`
rests on more of them: the wrap of an address (D4), the form of the stack (D8), a key index above 0xF
(D10), the bit of a key (D11), the sprite's bit order (D12) and operands read before any write (D13). -/
def Obligations.ExecutionWritesOnlyItsOwnParts : Prop :=
  ∀ (i : Instr) (s t : State), s.mem.wf → exec i s = .next t → UnchangedOutside (mayWrite i s) s t

/-- The frame of a whole step: outside its instruction's parts a step changes only `pc`, the two
timers, `tick_acc` and the model's own two fields, so never `keys` or a parameter (D22, D23, and the
choices that `mayWrite` rests on). -/
def Obligations.StepWritesOnlyItsOwnParts : Prop :=
  ∀ (dt : Nat) (rnd : Byte) (s t : State), s.mem.wf → cycle dt rnd s = .next t →
    ∃ i, decode (s.mem.wordAt s.pc) = .ok i ∧
      UnchangedOutside (fun p => mayWrite i (s.enter rnd) p ∨ stepWrites p) s t

/-! ## Control transfer -/

/-- R70: `1nnn` puts the zero-extended address in `pc` and writes no flag. -/
def Obligations.JumpSetsPc : Prop :=
  ∀ (nnn : Addr) (s : State), ∃ t, exec (.jp nnn) s = .next t ∧
    t.pc.toNat = nnn.toNat ∧ t.R = s.R

/-- `Bnnn` adds `R0`, whatever bits 11:8 hold, and does not reduce the sum to 12 bits (the last is the
spec's own choice, D2). -/
def Obligations.JumpPlusR0IsNotReduced : Prop :=
  ∀ (nnn : Addr) (s : State), ∃ t, exec (.jpR0 nnn) s = .next t ∧
    t.pc.toNat = nnn.toNat + (s.reg 0).toNat

/-- `2nnn` on a stack that is not full pushes `pc`, the address after the call, and jumps (R71; the
stack's form is D8). -/
def Obligations.CallPushesTheReturnAddress : Prop :=
  ∀ (nnn : Addr) (s : State), s.sp.val < 16 → ∃ t, exec (.call nnn) s = .next t ∧
    t.pc.toNat = nnn.toNat ∧ t.sp.val = s.sp.val + 1 ∧
    ∀ j : Fin 16, t.stack.get j = if j.val = s.sp.val then s.pc else s.stack.get j

/-- `00EE` on a stack that is not empty pops it into `pc`; the entry keeps its value (R69; the stack's
form is D8). -/
def Obligations.ReturnPopsIntoPc : Prop :=
  ∀ s : State, 0 < s.sp.val → ∃ t, exec .ret s = .next t ∧
    t.sp.val + 1 = s.sp.val ∧ t.stack = s.stack ∧
    ∀ j : Fin 16, j.val + 1 = s.sp.val → t.pc = s.stack.get j

/-- A call followed eventually by its return restores `pc` to exactly the address after the call:
whatever ran between them, if it left the stack as the call did (§8's property, quoted in R71). The
stack's form is the spec's own choice (D8). -/
def Obligations.ReturnUndoesTheCall : Prop :=
  ∀ (nnn : Addr) (s t u : State), exec (.call nnn) s = .next t → u.sp = t.sp → u.stack = t.stack →
    ∃ v, exec .ret u = .next v ∧ v.pc = s.pc ∧ v.sp = s.sp

/-- The four comparison skips add 2 to `pc` when their condition holds and leave it otherwise, and write
no register (40_control.md). That a skip past 0xFFF is not reduced is the spec's own choice (D2,
notes/assumptions/10.md). -/
def Obligations.ComparisonSkipsAddTwo : Prop :=
  ∀ (x y : Reg) (kk : Byte) (s : State),
    (∃ t, exec (.seImm x kk) s = .next t ∧ t.R = s.R ∧
      t.pc = if s.reg x = kk then s.pc + 2 else s.pc) ∧
    (∃ t, exec (.sneImm x kk) s = .next t ∧ t.R = s.R ∧
      t.pc = if s.reg x ≠ kk then s.pc + 2 else s.pc) ∧
    (∃ t, exec (.seReg x y) s = .next t ∧ t.R = s.R ∧
      t.pc = if s.reg x = s.reg y then s.pc + 2 else s.pc) ∧
    (∃ t, exec (.sneReg x y) s = .next t ∧ t.R = s.R ∧
      t.pc = if s.reg x ≠ s.reg y then s.pc + 2 else s.pc)

/-! ## Loads, arithmetic and logic -/

/-- R78, R79 and R80: `6xkk` loads the immediate, `7xkk` adds it modulo 256 and never writes `RF` as a
flag, and `8xy0` copies `Ry`. `RF` changes only when `x` names it, and then holds the result. -/
def Obligations.LoadsAndAddImmediateWriteNoFlag : Prop :=
  ∀ (x y : Reg) (kk : Byte) (s : State),
    (∃ t, exec (.ldImm x kk) s = .next t ∧ t.reg x = kk ∧ (x ≠ 15 → t.reg 15 = s.reg 15)) ∧
    (∃ t, exec (.addImm x kk) s = .next t ∧
      (t.reg x).toNat = ((s.reg x).toNat + kk.toNat) % 256 ∧ (x ≠ 15 → t.reg 15 = s.reg 15)) ∧
    (∃ t, exec (.ldReg x y) s = .next t ∧ t.reg x = s.reg y ∧ (x ≠ 15 → t.reg 15 = s.reg 15))

/-- `8xy1`, `8xy2`, `8xy3` are bitwise and do not reset `RF` (the last is the spec's own choice,
D22). -/
def Obligations.LogicIsBitwiseWithoutFlag : Prop :=
  ∀ (x y : Reg) (s : State),
    (∃ t, exec (.or x y) s = .next t ∧ (x ≠ 15 → t.reg 15 = s.reg 15) ∧
      ∀ b < 8, (t.reg x).getLsbD b = ((s.reg x).getLsbD b || (s.reg y).getLsbD b)) ∧
    (∃ t, exec (.and x y) s = .next t ∧ (x ≠ 15 → t.reg 15 = s.reg 15) ∧
      ∀ b < 8, (t.reg x).getLsbD b = ((s.reg x).getLsbD b && (s.reg y).getLsbD b)) ∧
    (∃ t, exec (.xor x y) s = .next t ∧ (x ≠ 15 → t.reg 15 = s.reg 15) ∧
      ∀ b < 8, (t.reg x).getLsbD b = ((s.reg x).getLsbD b ^^ (s.reg y).getLsbD b))

/-- `8xy4` adds modulo 256 and leaves the carry of the unreduced sum in `RF` (41_alu.md). That it is the
carry that stays when `x` is 0xF is the spec's own choice (D13, notes/assumptions/18.md). -/
def Obligations.AddRegistersLeavesTheCarry : Prop :=
  ∀ (x y : Reg) (s : State), ∃ t, exec (.addReg x y) s = .next t ∧
    (x ≠ 15 → (t.reg x).toNat = ((s.reg x).toNat + (s.reg y).toNat) % 256) ∧
    t.reg 15 = if (s.reg x).toNat + (s.reg y).toNat > 255 then 1 else 0

/-- `8xy5` subtracts `Ry` from `Rx` and `8xy7` `Rx` from `Ry`, modulo 256, and each leaves no-borrow in
`RF` (41_alu.md). That it is the flag that stays when `x` is 0xF is the spec's own choice (D13,
notes/assumptions/18.md). -/
def Obligations.SubtractionsLeaveNoBorrow : Prop :=
  ∀ (x y : Reg) (s : State),
    (∃ t, exec (.sub x y) s = .next t ∧
      (x ≠ 15 → (t.reg x).toNat = ((s.reg x).toNat + 256 - (s.reg y).toNat) % 256) ∧
      t.reg 15 = if (s.reg x).toNat ≥ (s.reg y).toNat then 1 else 0) ∧
    (∃ t, exec (.subn x y) s = .next t ∧
      (x ≠ 15 → (t.reg x).toNat = ((s.reg y).toNat + 256 - (s.reg x).toNat) % 256) ∧
      t.reg 15 = if (s.reg y).toNat ≥ (s.reg x).toNat then 1 else 0)

/-- `8xy6` shifts its source right by one and `8xyE` left by one modulo 256; the bit shifted out is in
`RF` unless `x` is 0xF, where the result, written last, stays (D13). The source, of the flag too, is
`Ry` with the legacy quirk and `Rx` without (D14). -/
def Obligations.ShiftsMoveTheirSourceByOne : Prop :=
  ∀ (x y : Reg) (s : State) (v : Nat),
    v = (if s.cfg.legacyShiftQuirk = true then s.reg y else s.reg x).toNat →
    (∃ t, exec (.shr x y) s = .next t ∧ (t.reg x).toNat = v / 2 ∧
      (x ≠ 15 → (t.reg 15).toNat = v % 2)) ∧
    (∃ t, exec (.shl x y) s = .next t ∧ (t.reg x).toNat = v * 2 % 256 ∧
      (x ≠ 15 → (t.reg 15).toNat = v / 128))

/-- `Cxkk` puts the step's draw AND `kk` in `Rx`, for every draw the host gives the step (41_alu.md). That
the draw is a free input under no law is the spec's own choice (D17), and that it is latched in the field
`rnd` when the execute phase begins is the model's (notes/assumptions/2.md). -/
def Obligations.RandomIsTheDrawMasked : Prop :=
  ∀ (x : Reg) (kk draw : Byte) (s : State),
    (s.enter draw).rnd = draw ∧ ∃ t, exec (.rnd x kk) s = .next t ∧
      t.reg x = s.rnd &&& kk ∧ (x ≠ 15 → t.reg 15 = s.reg 15) ∧
      ∀ b, kk.getLsbD b = false → (t.reg x).getLsbD b = false

/-! ## Index register and memory -/

/-- R91 and R93: `Annn` loads `nnn`, and `Fx29` five times `Rx`, not reduced to its low nibble; neither
writes a register. -/
def Obligations.IndexLoadsAreExact : Prop :=
  ∀ (nnn : Addr) (x : Reg) (s : State),
    (∃ t, exec (.ldI nnn) s = .next t ∧ t.I = nnn ∧ t.R = s.R) ∧
    (∃ t, exec (.ldF x) s = .next t ∧ t.I.toNat = (s.reg x).toNat * 5 ∧ t.R = s.R)

/-- `Fx1E` adds `Rx` to `I` modulo 0x1000 (D3) and writes no flag (D22). -/
def Obligations.AddToIndexWrapsWithoutFlag : Prop :=
  ∀ (x : Reg) (s : State), ∃ t, exec (.addI x) s = .next t ∧
    t.I.toNat = (s.I.toNat + (s.reg x).toNat) % 0x1000 ∧ t.R = s.R

/-- `Fx33` stores the hundreds, tens and ones of `Rx` at `A12(I)`, `A12(I + 1)`, `A12(I + 2)` and
leaves `I` and every other byte (42_index_memory.md). That an address wraps is the spec's own choice (D4,
notes/assumptions/12.md), the writable font D9 (14.md), and the unchanged `I` D22 (25.md). -/
def Obligations.BcdStoresThreeDigits : Prop :=
  ∀ (x : Reg) (s : State), ∃ t, exec (.ldB x) s = .next t ∧ t.I = s.I ∧
    (s.mem.wf →
      (t.byte (A12 s.I.toNat)).toNat = (s.reg x).toNat / 100 ∧
      (t.byte (A12 (s.I.toNat + 1))).toNat = (s.reg x).toNat / 10 % 10 ∧
      (t.byte (A12 (s.I.toNat + 2))).toNat = (s.reg x).toNat % 10 ∧
      ∀ a, (∀ k < 3, a ≠ A12 (s.I.toNat + k)) → t.byte a = s.byte a)

/-- `Fx55` stores `R0..Rx` from `A12(I)` up, leaves every other byte, and adds `x + 1` to `I` (R95; the
wrap of an address is D4, of `I` D3, and the writable font D9). -/
def Obligations.BlockStoreCopiesRegisters : Prop :=
  ∀ (x : Reg) (s : State), ∃ t, exec (.stRegs x) s = .next t ∧
    t.I.toNat = (s.I.toNat + x.val + 1) % 0x1000 ∧ t.R = s.R ∧
    (s.mem.wf →
      (∀ k : Reg, k ≤ x → t.byte (A12 (s.I.toNat + k.val)) = s.reg k) ∧
      ∀ a, (∀ k ≤ x.val, a ≠ A12 (s.I.toNat + k)) → t.byte a = s.byte a)

/-- `Fx65` loads `R0..Rx` from `A12(I)` up, leaves the registers above `Rx` and every byte, and adds
`x + 1` to `I` (R96; the wrap of an address is D4, of `I` D3). -/
def Obligations.BlockLoadFillsRegisters : Prop :=
  ∀ (x : Reg) (s : State), ∃ t, exec (.ldRegs x) s = .next t ∧
    t.I.toNat = (s.I.toNat + x.val + 1) % 0x1000 ∧ t.mem = s.mem ∧
    ∀ k : Reg, t.reg k = if k ≤ x then s.byte (A12 (s.I.toNat + k.val)) else s.reg k

/-- `Fx55` and then `Fx65` with the same `x` and `I` round-trips the registers, whatever happened to
the registers between them (§8's property, quoted in R96). That a block past 0xFFF wraps is the spec's
own choice (D4, notes/assumptions/12.md), and so is that the font is writable (D9, 14.md). -/
def Obligations.BlockStoreThenLoadRoundTrips : Prop :=
  ∀ (x : Reg) (s t u v : State), s.mem.wf → exec (.stRegs x) s = .next t →
    u.mem = t.mem → u.I = s.I → exec (.ldRegs x) u = .next v → ∀ k : Reg, k ≤ x → v.reg k = s.reg k

/-- Any two neighbouring bytes stored with `Fx55` are fetched as an instruction with the first-stored byte
in bits 15:8 (20_memory.md §4). The spec's own choices are the coherence of fetch with stores (D19), the
wrap of an address (D4), the writable font (D9, notes/assumptions/14.md) and the fetch at an odd address
(D18, notes/assumptions/21.md). -/
def Obligations.StoredBytesAreFetchedBigEndian : Prop :=
  ∀ (x k j : Reg) (s t u : State), s.mem.wf → k.val + 1 = j.val → j ≤ x →
    exec (.stRegs x) s = .next t → u.mem = t.mem → u.pc.toNat = (s.I.toNat + k.val) % 0x1000 →
    u.pc.toNat ≤ 0xFFE →
      ∃ w, fetch u = .ok w ∧ w.toNat = (s.reg k).toNat * 256 + (s.reg j).toNat

/-- Canonical memories that read the same at every address are the same list (the model's own form of
memory, notes/assumptions/9.md). -/
def Obligations.CanonicalMemoryIsItsBytes : Prop :=
  ∀ m n : Memory, m.wf → n.wf → (∀ a : Addr, m.read a = n.read a) → m = n

/-! ## Display -/

/-- R99: `00E0` makes every cell dark and sets the redraw flag, regardless of the buffer's contents,
and does not write `RF`. -/
def Obligations.ClearDarkensEveryCell : Prop :=
  ∀ s : State, ∃ t, exec .cls s = .next t ∧ (∀ col row, t.pix.get col row = false) ∧
    t.redraw = true ∧ t.reg 15 = s.reg 15

/-- `Dxyn`: every cell becomes its old value XOR the sprite's bit for it, `RF` is 1 exactly when some
lit cell has its bit set, `redraw` is true and `I` is unchanged (43_display.md). The spec's own choices
are bit 7 leftmost (D12), the coordinates read before `RF` is cleared (D13), the wrap of a sprite address
(D4) and that `I` is unchanged (D22, notes/assumptions/25.md). -/
def Obligations.DrawXorsTheSprite : Prop :=
  ∀ (x y : Reg) (n : Nat) (s : State), ∃ t, exec (.drw x y n) s = .next t ∧
    (∀ col row, t.pix.get col row = (s.pix.get col row ^^
      spriteLit s.spriteByte n (s.reg x).toNat (s.reg y).toNat col row)) ∧
    ((∃ col row, s.pix.get col row = true ∧
        spriteLit s.spriteByte n (s.reg x).toNat (s.reg y).toNat col row = true) →
      t.reg 15 = 1) ∧
    ((∀ col row, s.pix.get col row = true →
        spriteLit s.spriteByte n (s.reg x).toNat (s.reg y).toNat col row = false) →
      t.reg 15 = 0) ∧
    t.redraw = true ∧ t.I = s.I

/-- R103: the flag after a draw is 1 exactly when at least one cell was lit before it and is dark after
it, else 0. -/
def Obligations.CollisionIsACellGoingDark : Prop :=
  ∀ (x y : Reg) (n : Nat) (s : State), ∃ t, exec (.drw x y n) s = .next t ∧
    (t.reg 15 = 1 ∨ t.reg 15 = 0) ∧
    (t.reg 15 = 1 ↔ ∃ col row, s.pix.get col row = true ∧ t.pix.get col row = false)

/-- Sprites are clipped, not wrapped (43_display.md): a cell left of or above the start keeps its value,
only a cell of the grid counts for collision, and a sprite that starts outside the grid changes no cell
and does not collide. DrawXorsTheSprite says what becomes of each cell of a sprite that crosses an edge.
That a coordinate in `RF` is read before `RF` is cleared is the spec's own choice (D13,
notes/assumptions/18.md). -/
def Obligations.SpritesAreClippedNotWrapped : Prop :=
  ∀ (x y : Reg) (n : Nat) (s : State), ∃ t, exec (.drw x y n) s = .next t ∧
    (∀ col row, col < (s.reg x).toNat ∨ row < (s.reg y).toNat →
      t.pix.get col row = s.pix.get col row) ∧
    (t.reg 15 = 1 → ∃ col row, col ≤ 63 ∧ row ≤ 31 ∧ s.pix.get col row = true ∧
      t.pix.get col row = false) ∧
    (64 ≤ (s.reg x).toNat ∨ 32 ≤ (s.reg y).toNat → t.pix = s.pix ∧ t.reg 15 = 0)

/-- Drawing the same sprite twice at the same place restores the display. A coordinate held in `RF` is
the same place only if the first draw left it as it was. If the cells the sprite lights were dark, the
second draw collides exactly when it lights at least one cell (§8's property, quoted in
95_test_vectors.md W6; notes/assumptions/30.md says why the cells must have been dark). Which cells those
are rests on the spec's own choices D4, D12 and D13, and that `I` still points at the sprite on D22. -/
def Obligations.DrawingTwiceRestoresTheDisplay : Prop :=
  ∀ (x y : Reg) (n : Nat) (s t u : State),
    (x = 15 ∨ y = 15 → t.reg 15 = s.reg 15) → exec (.drw x y n) s = .next t →
    exec (.drw x y n) t = .next u →
    u.pix = s.pix ∧
    ((∀ col row, spriteLit s.spriteByte n (s.reg x).toNat (s.reg y).toNat col row = true →
        s.pix.get col row = false) →
      (u.reg 15 = 1 ↔
        ∃ col row, spriteLit s.spriteByte n (s.reg x).toNat (s.reg y).toNat col row = true))

/-- R104: every `00E0` and `Dxyn` sets the redraw flag, no other instruction changes it, and only the
host's `clear_redraw` and reset clear it. -/
def Obligations.RedrawIsSetByDrawingAndClearedByTheHost : Prop :=
  (∀ s : State, ∃ t, exec .cls s = .next t ∧ t.redraw = true) ∧
  (∀ (x y : Reg) (n : Nat) (s : State), ∃ t, exec (.drw x y n) s = .next t ∧ t.redraw = true) ∧
  (∀ (i : Instr) (s t : State), i ≠ .cls → (∀ x y n, i ≠ .drw x y n) → exec i s = .next t →
    t.redraw = s.redraw) ∧
  ∀ (o : HostOp) (s : State), o ≠ .clearRedraw → o ≠ .reset → s.redraw = true →
    (o.run s).1.redraw = true

/-! ## Keys and timers -/

/-- `Ex9E` skips when the key whose index is in `Rx` is down and `ExA1` when it is not; an index of
0x10 or more is not down (D10), bit k of the mask is key k (D11), and a skip past 0xFFF is not reduced
(D2): the spec's own choices. -/
def Obligations.KeySkipsTestOneKey : Prop :=
  ∀ (x : Reg) (s : State), ∃ t u, exec (.skp x) s = .next t ∧ exec (.sknp x) s = .next u ∧
    ((s.reg x).toNat ≤ 15 ∧ s.keys.getLsbD (s.reg x).toNat = true →
      t.pc = s.pc + 2 ∧ u.pc = s.pc) ∧
    (¬ ((s.reg x).toNat ≤ 15 ∧ s.keys.getLsbD (s.reg x).toNat = true) →
      t.pc = s.pc ∧ u.pc = s.pc + 2)

/-- With no key down `Fx0A` only moves `pc` back by 2, so that it runs again; otherwise `Rx` holds the
lowest index of a key that is down, and `pc` and every other register are left (44_timer_input.md). That
bit k of the mask is key k is the spec's own choice (D11, notes/assumptions/16.md). -/
def Obligations.KeyWaitRewindsOrTakesTheLowestKey : Prop :=
  ∀ (x : Reg) (s : State), ∃ t, exec (.ldRK x) s = .next t ∧
    (s.keys = 0 → t.pc = s.pc - 2 ∧ t.R = s.R) ∧
    (s.keys ≠ 0 → t.pc = s.pc ∧ s.keys.getLsbD (t.reg x).toNat = true ∧ (t.reg x).toNat < 16 ∧
      (∀ k < (t.reg x).toNat, s.keys.getLsbD k = false) ∧ ∀ r, r ≠ x → t.reg r = s.reg r)

/-- `Fx07` reads `DT` and `Fx15` and `Fx18` write `DT` and `ST`, before the step's own timer update,
which then takes the ticks due from the value written (44_timer_input.md; the order is D16). -/
def Obligations.TimerAccessComesBeforeTheTick : Prop :=
  ∀ (x : Reg) (s : State),
    (∃ t, exec (.ldRDt x) s = .next t ∧ t.reg x = s.DT) ∧
    (∃ t, exec (.ldDt x) s = .next t ∧ t.DT = s.reg x ∧ t.ST = s.ST ∧
      ∀ dt, (t.timerUpdate dt).DT.toNat = (s.reg x).toNat - s.ticksDue dt) ∧
    (∃ t, exec (.ldSt x) s = .next t ∧ t.ST = s.reg x ∧ t.DT = s.DT ∧
      ∀ dt, (t.timerUpdate dt).ST.toNat = (s.reg x).toNat - s.ticksDue dt)

/-- The end-of-step timer update: the accumulator keeps the remainder, and both counters go down by the
ticks due and stop at 0 (60_exceptions.md §4; D15, D16). -/
def Obligations.TimerUpdateSaturates : Prop :=
  ∀ (s : State) (dt : Nat),
    (s.timerUpdate dt).tickAcc = (s.tickAcc + dt) % s.cfg.tickUnits ∧
    (s.timerUpdate dt).DT.toNat = s.DT.toNat - (s.tickAcc + dt) / s.cfg.tickUnits ∧
    (s.timerUpdate dt).ST.toNat = s.ST.toNat - (s.tickAcc + dt) / s.cfg.tickUnits ∧
    UnchangedOutside (fun p => p = .delay ∨ p = .sound ∨ p = .tickAcc) s (s.timerUpdate dt)

/-- The cadence law: steps from a state with an empty accumulator, none faulting, apply exactly
`floor((dt_1 + ... + dt_m) / TICK_UNITS)` ticks, whatever instructions ran, and the accumulator holds
the rest (60_exceptions.md §4; D15). -/
def Obligations.TicksFollowElapsedTime : Prop :=
  ∀ (ins : List (Nat × Byte)) (s u : State) (n : Nat), s.tickAcc = 0 →
    runSteps ins s = some (u, n) →
    n = (ins.map Prod.fst).sum / s.cfg.tickUnits ∧
    u.tickAcc = (ins.map Prod.fst).sum % s.cfg.tickUnits

/-! ## What no instruction reads -/

/-- No instruction reads `ST`, `redraw` or `tick_acc`: changing them changes no other part of a result
(R26, R28, R30). That the accumulator is `tick_acc` is the spec's own choice (D15). -/
def Obligations.SoundRedrawAndTickAccAreNeverRead : Prop :=
  ∀ (i : Instr) (s t : State) (v : Byte) (b : Bool) (n : Nat), exec i s = .next t →
    ∃ t', exec i { s with ST := v, redraw := b, tickAcc := n } = .next t' ∧
      ∀ p : StatePart, p ≠ .sound → p ≠ .redraw → p ≠ .tickAcc → p.same t t'

/-- Stack entries at or above `sp` are never read (R24, D8): changing one changes neither a live entry
nor any other part of a result. -/
def Obligations.DeadStackEntriesAreNeverRead : Prop :=
  ∀ (i : Instr) (s t : State) (j : Fin 16) (v : Word), s.sp.val ≤ j.val → exec i s = .next t →
    ∃ t', exec i { s with stack := s.stack.set j.val v } = .next t' ∧
      ∀ p : StatePart, (∀ k, p = .entry k → k.val < t.sp.val) → p.same t t'

/-- The step's draw is used only by `Cxkk` (70_reset_and_hazards.md §2), and the legacy quirk changes
what `8xy6` and `8xyE` compute and nothing else (00_scope.md §4, 30_encoding.md §3): every other
instruction gives the same result with another draw or other parameters. The draw as a free input is the
spec's own choice (D17), its field `rnd` and the parameters in `cfg` are the model's
(notes/assumptions/2.md, 3.md, 4.md). -/
def Obligations.DrawAndQuirkReachOnlyTheirInstructions : Prop :=
  ∀ (i : Instr) (s : State),
    (∀ v : Byte, (∀ x kk, i ≠ .rnd x kk) →
      exec i { s with rnd := v } = mapNext (fun t => { t with rnd := v }) (exec i s)) ∧
    ∀ c : Config, (∀ x y, i ≠ .shr x y) → (∀ x y, i ≠ .shl x y) →
      exec i { s with cfg := c } = mapNext (fun t => { t with cfg := c }) (exec i s)

/-! ## Reset, the host and the invariant -/

/-- The state after reset: `pc` is 0x200, the font is at 0x000..0x04F and everything else is zero. That
it is zero is the spec's own choice (D7), and the font's bytes are presumed by it (G2). The host's reset
establishes it from every state, the halted one included, and clears the fault (D26); that it keeps the
parameters and the step number is the model's choice (notes/assumptions/28.md). -/
def Obligations.ResetStateIsTheTable : Prop :=
  State.reset.pc = 0x200 ∧ (∀ r, State.reset.reg r = 0) ∧ State.reset.I = 0 ∧ State.reset.sp = 0 ∧
  (∀ j, State.reset.stack.get j = 0) ∧ State.reset.DT = 0 ∧ State.reset.ST = 0 ∧
  (∀ col row, State.reset.pix.get col row = false) ∧ State.reset.redraw = false ∧
  State.reset.keys = 0 ∧ State.reset.tickAcc = 0 ∧ State.reset.fault = none ∧
  (∀ d < 16, ∀ k < 5, State.reset.byte (A12 (5 * d + k)) = (glyph d).getD k 0) ∧
  (∀ a : Addr, 0x050 ≤ a.toNat → State.reset.byte a = 0) ∧
  ∀ s : State, ∃ t, HostOp.reset.run s = (t, .nothing) ∧ t.fault = none ∧
    UnchangedOutside (fun p => p = .cfg ∨ p = .stepNo) State.reset t ∧
    t.cfg = s.cfg ∧ t.stepNo = s.stepNo

/-- A step before any load faults with `InvalidOpcode{0x0000, 0x200}` (R138; it rests on the zero
memory of D7). -/
def Obligations.StepBeforeLoadFaults : Prop :=
  step State.reset = .fault (.invalidOpcode 0x0000 0x200)

/-- A load of at most 3584 bytes puts byte `j` at `0x200 + j` and writes nothing else (R139; that it
may come between any two steps is D20). -/
def Obligations.LoadWritesOnlyItsBytes : Prop :=
  ∀ (bytes : List Byte) (s : State), bytes.length ≤ 3584 → ∃ t,
    (HostOp.load bytes).run s = (t, .ok) ∧
    (s.mem.wf →
      (∀ j (h : j < bytes.length), t.byte (BitVec.ofNat 12 (0x200 + j)) = bytes[j]) ∧
      UnchangedOutside (fun p => ∃ j < bytes.length, p = .byte (BitVec.ofNat 12 (0x200 + j))) s t)

/-- R140: a load that is too long changes nothing, whatever the state. -/
def Obligations.FailedLoadChangesNothing : Prop :=
  ∀ (bytes : List Byte) (s : State), 3584 < bytes.length →
    (HostOp.load bytes).run s = (s, .romTooLarge)

/-- R129: the host reads all cells and the redraw flag, and may clear the flag, between any two steps;
no host operation but a step or a reset changes a cell. -/
def Obligations.HostReadsTheDisplayAndClearsRedraw : Prop :=
  ∀ s : State,
    HostOp.readDisplay.run s = (s, .display s.pix s.redraw) ∧
    (HostOp.clearRedraw.run s).1.redraw = false ∧
    UnchangedOutside (· = .redraw) s (HostOp.clearRedraw.run s).1 ∧
    ∀ o : HostOp, o ≠ .reset → (∀ dt rnd, o ≠ .step dt rnd) → (o.run s).1.pix = s.pix

/-- Reset meets the invariant, whatever the parameters, so long as `TICK_UNITS` is at least 1 (R7). The
zero stack and `tick_acc` are the spec's own choice (D7, notes/assumptions/7.md), the bounds on `pc` and
`tick_acc` D2 and D15 (10.md, 20.md), and the form of memory is the model's (9.md). -/
def Obligations.ResetMeetsTheInvariant : Prop :=
  State.reset.Inv ∧
  ∀ c : Config, 1 ≤ c.tickUnits → ({ State.reset with cfg := c } : State).Inv

/-- Every step keeps the invariant, from every state that meets it: memory keeps its canonical form,
`pc` stays at most 0x10FE, every return address at most 0x1000 and `tick_acc` below `TICK_UNITS`
(10_state.md §13). That `pc` is unreduced and so bounded is the spec's own choice (D2), `tick_acc` D15,
the form of memory the model's (notes/assumptions/9.md). -/
def Obligations.StepKeepsTheInvariant : Prop :=
  ∀ s t : State, s.Inv → step s = .next t → t.Inv

/-- Every state that any sequence of host operations reaches from reset meets the invariant (10_state.md
§13): loads of any program, any keys, any inputs, faults and repeated resets included. It rests on the
choices that StepKeepsTheInvariant names, and on D5, D7, D20 and D26 for what the host operations leave. -/
def Obligations.ReachableStatesMeetTheInvariant : Prop := ∀ t : State, Reachable t → t.Inv

/-- The host writes the whole input mask and nothing else (60_exceptions.md §5, §6; D1, D23), and reads
the sound timer, with whether it is nonzero (D24), and the fault record, which changes nothing. -/
def Obligations.HostWritesKeysAndReadsSoundAndFault : Prop :=
  ∀ s : State,
    (∀ mask : Word, ∃ t, (HostOp.setKeys mask).run s = (t, .nothing) ∧ t.keys = mask ∧
      UnchangedOutside (· = .keys) s t) ∧
    (∃ active, HostOp.readSound.run s = (s, .sound s.ST active) ∧
      (active = true ↔ s.ST.toNat ≠ 0)) ∧
    HostOp.readFault.run s = (s, .record s.fault)
end

