-- ==== Sys2Proof/Laws/Decode.lean ====
section
/-! SUPPORT. The fields of a word in plain arithmetic, the fields of an encoded word, and what the
masks of the opcode map keep. -/

namespace Sys2Proof

/-! ## The fields of an encoded word -/

theorem bits_ofNat (v hi lo : Nat) :
    bits (BitVec.ofNat 16 v) hi lo = v % 65536 / 2 ^ lo % 2 ^ (hi + 1 - lo) := by simp [bits]

/-- Both fields of a word in format `NNN`. -/
theorem fields_encNNN (op : Nat) (nnn : Addr) (h : op < 16) :
    fieldOp (encNNN op nnn) = op ∧ fieldNNN (encNNN op nnn) = nnn := by
  have := nnn.isLt
  refine ⟨?_, BitVec.eq_of_toNat_eq ?_⟩
  · simp only [fieldOp, encNNN, bits_ofNat]; omega
  · simp only [fieldNNN, encNNN, bits_ofNat, BitVec.toNat_ofNat]; omega

/-- The three fields of a word in format `XKK` or `XS`. -/
theorem fields_encXKK (op : Nat) (x : Reg) (kk : Nat) (h : op < 16) (hk : kk < 256) :
    fieldOp (encXKK op x kk) = op ∧ fieldX (encXKK op x kk) = x ∧
      fieldKKNat (encXKK op x kk) = kk ∧ fieldKK (encXKK op x kk) = BitVec.ofNat 8 kk := by
  have := x.isLt
  refine ⟨?_, Fin.ext ?_, ?_, BitVec.eq_of_toNat_eq ?_⟩
  · simp only [fieldOp, encXKK, bits_ofNat]; omega
  · simp only [fieldX, encXKK, bits_ofNat, Fin.val_ofNat]; omega
  · simp only [fieldKKNat, encXKK, bits_ofNat]; omega
  · simp only [fieldKK, encXKK, bits_ofNat, BitVec.toNat_ofNat]; omega

/-- The four fields of a word in format `XYS` or `XYN`. -/
theorem fields_encXYN (op : Nat) (x y : Reg) (n : Nat) (h : op < 16) (hn : n < 16) :
    fieldOp (encXYN op x y n) = op ∧ fieldX (encXYN op x y n) = x ∧
      fieldY (encXYN op x y n) = y ∧ fieldN (encXYN op x y n) = n := by
  have := x.isLt
  have := y.isLt
  refine ⟨?_, Fin.ext ?_, Fin.ext ?_, ?_⟩
  · simp only [fieldOp, encXYN, bits_ofNat]; omega
  · simp only [fieldX, encXYN, bits_ofNat, Fin.val_ofNat]; omega
  · simp only [fieldY, encXYN, bits_ofNat, Fin.val_ofNat]; omega
  · simp only [fieldN, encXYN, bits_ofNat]; omega

/-! ## What the masks keep -/

theorem and_F000_toNat (w : Word) : (w &&& 0xF000#16).toNat = w.toNat / 4096 * 4096 := by
  have h : w &&& 0xF000#16 = (w >>> 12) <<< 12 := by
    ext i hi
    interval_cases i <;> simp
  have := w.isLt
  rw [h]
  simp only [BitVec.toNat_shiftLeft, BitVec.toNat_ushiftRight, Nat.shiftRight_eq_div_pow,
    Nat.shiftLeft_eq]
  omega

theorem and_000F_toNat (w : Word) : (w &&& 0x000F#16).toNat = w.toNat % 16 := by
  simpa using Nat.and_two_pow_sub_one_eq_mod w.toNat 4

theorem and_00FF_toNat (w : Word) : (w &&& 0x00FF#16).toNat = w.toNat % 256 := by
  simpa using Nat.and_two_pow_sub_one_eq_mod w.toNat 8

theorem and_split (w a b c : Word) (h : a ||| b = c) (hd : a &&& b = 0) :
    w &&& c = (w &&& a) + (w &&& b) := by
  rw [BitVec.add_eq_or_of_and_eq_zero, ← h]
  · ext i hi
    simp [Bool.and_or_distrib_left]
  · have : (w &&& a) &&& (w &&& b) = w &&& (a &&& b) := by
      ext i hi
      simp only [BitVec.getElem_and]
      cases w[i] <;> simp
    rw [this, hd]
    simp

theorem and_F00F_toNat (w : Word) :
    (w &&& 0xF00F#16).toNat = w.toNat / 4096 * 4096 + w.toNat % 16 := by
  have := w.isLt
  rw [and_split w 0xF000#16 0x000F#16 _ (by decide) (by decide), BitVec.toNat_add,
    and_F000_toNat, and_000F_toNat]
  omega

theorem and_F0FF_toNat (w : Word) :
    (w &&& 0xF0FF#16).toNat = w.toNat / 4096 * 4096 + w.toNat % 256 := by
  have := w.isLt
  rw [and_split w 0xF000#16 0x00FF#16 _ (by decide) (by decide), BitVec.toNat_add,
    and_F000_toNat, and_00FF_toNat]
  omega

/-- A row whose mask keeps `op`: it fits exactly the words of its family. -/
theorem fits_F000 (m : String) (p w : Word) :
    OpcodeRow.fits ⟨m, p, 0xF000⟩ w = true ↔ fieldOp w * 4096 = p.toNat := by
  have := w.isLt
  have hm : (w &&& (0xF000 : Word)).toNat = _ := and_F000_toNat w
  simp only [OpcodeRow.fits, beq_iff_eq, ← BitVec.toNat_inj, hm, fieldOp, bits]
  omega

/-- A row whose mask keeps `op` and `n`. -/
theorem fits_F00F (m : String) (p w : Word) :
    OpcodeRow.fits ⟨m, p, 0xF00F⟩ w = true ↔ fieldOp w * 4096 + fieldN w = p.toNat := by
  have := w.isLt
  have hm : (w &&& (0xF00F : Word)).toNat = _ := and_F00F_toNat w
  simp only [OpcodeRow.fits, beq_iff_eq, ← BitVec.toNat_inj, hm, fieldOp, fieldN, bits]
  omega

/-- A row whose mask keeps `op` and `kk`. -/
theorem fits_F0FF (m : String) (p w : Word) :
    OpcodeRow.fits ⟨m, p, 0xF0FF⟩ w = true ↔ fieldOp w * 4096 + fieldKKNat w = p.toNat := by
  have := w.isLt
  have hm : (w &&& (0xF0FF : Word)).toNat = _ := and_F0FF_toNat w
  simp only [OpcodeRow.fits, beq_iff_eq, ← BitVec.toNat_inj, hm, fieldOp, fieldKKNat, bits]
  omega

/-- A row whose mask keeps the whole word. -/
theorem fits_FFFF (m : String) (p w : Word) :
    OpcodeRow.fits ⟨m, p, 0xFFFF⟩ w = true ↔ w = p := by
  have : w &&& (0xFFFF : Word) = w := by
    ext i hi
    interval_cases i <;> simp
  simp only [OpcodeRow.fits, beq_iff_eq, this]

end Sys2Proof
end

