-- ==== Sys2Proof/Laws/State.lean ====
section
/-! SUPPORT. One lemma per field per state update of Machine/Ops.lean, so that no later proof unfolds a
record update; `reg` and `byte` are read through as well. -/

namespace Sys2Proof.Machine

section setReg
variable (s : State) (r : Reg) (v : Byte)
@[simp] theorem State.setReg_R : (s.setReg r v).R = s.R.set r.val v := rfl
@[simp] theorem State.setReg_pc : (s.setReg r v).pc = s.pc := rfl
@[simp] theorem State.setReg_I : (s.setReg r v).I = s.I := rfl
@[simp] theorem State.setReg_sp : (s.setReg r v).sp = s.sp := rfl
@[simp] theorem State.setReg_stack : (s.setReg r v).stack = s.stack := rfl
@[simp] theorem State.setReg_DT : (s.setReg r v).DT = s.DT := rfl
@[simp] theorem State.setReg_ST : (s.setReg r v).ST = s.ST := rfl
@[simp] theorem State.setReg_mem : (s.setReg r v).mem = s.mem := rfl
@[simp] theorem State.setReg_pix : (s.setReg r v).pix = s.pix := rfl
@[simp] theorem State.setReg_redraw : (s.setReg r v).redraw = s.redraw := rfl
@[simp] theorem State.setReg_keys : (s.setReg r v).keys = s.keys := rfl
@[simp] theorem State.setReg_tickAcc : (s.setReg r v).tickAcc = s.tickAcc := rfl
@[simp] theorem State.setReg_fault : (s.setReg r v).fault = s.fault := rfl
@[simp] theorem State.setReg_cfg : (s.setReg r v).cfg = s.cfg := rfl
@[simp] theorem State.setReg_rnd : (s.setReg r v).rnd = s.rnd := rfl
@[simp] theorem State.setReg_stepNo : (s.setReg r v).stepNo = s.stepNo := rfl
@[simp] theorem State.setReg_byte (m : Addr) : (s.setReg r v).byte m = s.byte m := rfl
end setReg

section setRegThenFlag
variable (s : State) (r : Reg) (v f : Byte)
@[simp] theorem State.setRegThenFlag_R : (s.setRegThenFlag r v f).R = (s.R.set r.val v).set RF.val f := rfl
@[simp] theorem State.setRegThenFlag_pc : (s.setRegThenFlag r v f).pc = s.pc := rfl
@[simp] theorem State.setRegThenFlag_I : (s.setRegThenFlag r v f).I = s.I := rfl
@[simp] theorem State.setRegThenFlag_sp : (s.setRegThenFlag r v f).sp = s.sp := rfl
@[simp] theorem State.setRegThenFlag_stack : (s.setRegThenFlag r v f).stack = s.stack := rfl
@[simp] theorem State.setRegThenFlag_DT : (s.setRegThenFlag r v f).DT = s.DT := rfl
@[simp] theorem State.setRegThenFlag_ST : (s.setRegThenFlag r v f).ST = s.ST := rfl
@[simp] theorem State.setRegThenFlag_mem : (s.setRegThenFlag r v f).mem = s.mem := rfl
@[simp] theorem State.setRegThenFlag_pix : (s.setRegThenFlag r v f).pix = s.pix := rfl
@[simp] theorem State.setRegThenFlag_redraw : (s.setRegThenFlag r v f).redraw = s.redraw := rfl
@[simp] theorem State.setRegThenFlag_keys : (s.setRegThenFlag r v f).keys = s.keys := rfl
@[simp] theorem State.setRegThenFlag_tickAcc : (s.setRegThenFlag r v f).tickAcc = s.tickAcc := rfl
@[simp] theorem State.setRegThenFlag_fault : (s.setRegThenFlag r v f).fault = s.fault := rfl
@[simp] theorem State.setRegThenFlag_cfg : (s.setRegThenFlag r v f).cfg = s.cfg := rfl
@[simp] theorem State.setRegThenFlag_rnd : (s.setRegThenFlag r v f).rnd = s.rnd := rfl
@[simp] theorem State.setRegThenFlag_stepNo : (s.setRegThenFlag r v f).stepNo = s.stepNo := rfl
@[simp] theorem State.setRegThenFlag_byte (m : Addr) : (s.setRegThenFlag r v f).byte m = s.byte m := rfl
end setRegThenFlag

section setFlagThenReg
variable (s : State) (r : Reg) (v f : Byte)
@[simp] theorem State.setFlagThenReg_R : (s.setFlagThenReg r v f).R = (s.R.set RF.val f).set r.val v := rfl
@[simp] theorem State.setFlagThenReg_pc : (s.setFlagThenReg r v f).pc = s.pc := rfl
@[simp] theorem State.setFlagThenReg_I : (s.setFlagThenReg r v f).I = s.I := rfl
@[simp] theorem State.setFlagThenReg_sp : (s.setFlagThenReg r v f).sp = s.sp := rfl
@[simp] theorem State.setFlagThenReg_stack : (s.setFlagThenReg r v f).stack = s.stack := rfl
@[simp] theorem State.setFlagThenReg_DT : (s.setFlagThenReg r v f).DT = s.DT := rfl
@[simp] theorem State.setFlagThenReg_ST : (s.setFlagThenReg r v f).ST = s.ST := rfl
@[simp] theorem State.setFlagThenReg_mem : (s.setFlagThenReg r v f).mem = s.mem := rfl
@[simp] theorem State.setFlagThenReg_pix : (s.setFlagThenReg r v f).pix = s.pix := rfl
@[simp] theorem State.setFlagThenReg_redraw : (s.setFlagThenReg r v f).redraw = s.redraw := rfl
@[simp] theorem State.setFlagThenReg_keys : (s.setFlagThenReg r v f).keys = s.keys := rfl
@[simp] theorem State.setFlagThenReg_tickAcc : (s.setFlagThenReg r v f).tickAcc = s.tickAcc := rfl
@[simp] theorem State.setFlagThenReg_fault : (s.setFlagThenReg r v f).fault = s.fault := rfl
@[simp] theorem State.setFlagThenReg_cfg : (s.setFlagThenReg r v f).cfg = s.cfg := rfl
@[simp] theorem State.setFlagThenReg_rnd : (s.setFlagThenReg r v f).rnd = s.rnd := rfl
@[simp] theorem State.setFlagThenReg_stepNo : (s.setFlagThenReg r v f).stepNo = s.stepNo := rfl
@[simp] theorem State.setFlagThenReg_byte (m : Addr) : (s.setFlagThenReg r v f).byte m = s.byte m := rfl
end setFlagThenReg

section setI
variable (s : State) (a : Addr)
@[simp] theorem State.setI_R : (s.setI a).R = s.R := rfl
@[simp] theorem State.setI_pc : (s.setI a).pc = s.pc := rfl
@[simp] theorem State.setI_I : (s.setI a).I = a := rfl
@[simp] theorem State.setI_sp : (s.setI a).sp = s.sp := rfl
@[simp] theorem State.setI_stack : (s.setI a).stack = s.stack := rfl
@[simp] theorem State.setI_DT : (s.setI a).DT = s.DT := rfl
@[simp] theorem State.setI_ST : (s.setI a).ST = s.ST := rfl
@[simp] theorem State.setI_mem : (s.setI a).mem = s.mem := rfl
@[simp] theorem State.setI_pix : (s.setI a).pix = s.pix := rfl
@[simp] theorem State.setI_redraw : (s.setI a).redraw = s.redraw := rfl
@[simp] theorem State.setI_keys : (s.setI a).keys = s.keys := rfl
@[simp] theorem State.setI_tickAcc : (s.setI a).tickAcc = s.tickAcc := rfl
@[simp] theorem State.setI_fault : (s.setI a).fault = s.fault := rfl
@[simp] theorem State.setI_cfg : (s.setI a).cfg = s.cfg := rfl
@[simp] theorem State.setI_rnd : (s.setI a).rnd = s.rnd := rfl
@[simp] theorem State.setI_stepNo : (s.setI a).stepNo = s.stepNo := rfl
@[simp] theorem State.setI_reg (q : Reg) : (s.setI a).reg q = s.reg q := rfl
@[simp] theorem State.setI_byte (m : Addr) : (s.setI a).byte m = s.byte m := rfl
end setI

section loadRegs
variable (s : State) (x : Reg)
@[simp] theorem State.loadRegs_R : (s.loadRegs x).R = Vector.ofFn fun k => if k ≤ x then s.byte (dataAddr s.I k.val) else s.reg k := rfl
@[simp] theorem State.loadRegs_pc : (s.loadRegs x).pc = s.pc := rfl
@[simp] theorem State.loadRegs_I : (s.loadRegs x).I = s.I := rfl
@[simp] theorem State.loadRegs_sp : (s.loadRegs x).sp = s.sp := rfl
@[simp] theorem State.loadRegs_stack : (s.loadRegs x).stack = s.stack := rfl
@[simp] theorem State.loadRegs_DT : (s.loadRegs x).DT = s.DT := rfl
@[simp] theorem State.loadRegs_ST : (s.loadRegs x).ST = s.ST := rfl
@[simp] theorem State.loadRegs_mem : (s.loadRegs x).mem = s.mem := rfl
@[simp] theorem State.loadRegs_pix : (s.loadRegs x).pix = s.pix := rfl
@[simp] theorem State.loadRegs_redraw : (s.loadRegs x).redraw = s.redraw := rfl
@[simp] theorem State.loadRegs_keys : (s.loadRegs x).keys = s.keys := rfl
@[simp] theorem State.loadRegs_tickAcc : (s.loadRegs x).tickAcc = s.tickAcc := rfl
@[simp] theorem State.loadRegs_fault : (s.loadRegs x).fault = s.fault := rfl
@[simp] theorem State.loadRegs_cfg : (s.loadRegs x).cfg = s.cfg := rfl
@[simp] theorem State.loadRegs_rnd : (s.loadRegs x).rnd = s.rnd := rfl
@[simp] theorem State.loadRegs_stepNo : (s.loadRegs x).stepNo = s.stepNo := rfl
@[simp] theorem State.loadRegs_byte (m : Addr) : (s.loadRegs x).byte m = s.byte m := rfl
end loadRegs

section jump
variable (s : State) (t : Word)
@[simp] theorem State.jump_R : (s.jump t).R = s.R := rfl
@[simp] theorem State.jump_pc : (s.jump t).pc = t := rfl
@[simp] theorem State.jump_I : (s.jump t).I = s.I := rfl
@[simp] theorem State.jump_sp : (s.jump t).sp = s.sp := rfl
@[simp] theorem State.jump_stack : (s.jump t).stack = s.stack := rfl
@[simp] theorem State.jump_DT : (s.jump t).DT = s.DT := rfl
@[simp] theorem State.jump_ST : (s.jump t).ST = s.ST := rfl
@[simp] theorem State.jump_mem : (s.jump t).mem = s.mem := rfl
@[simp] theorem State.jump_pix : (s.jump t).pix = s.pix := rfl
@[simp] theorem State.jump_redraw : (s.jump t).redraw = s.redraw := rfl
@[simp] theorem State.jump_keys : (s.jump t).keys = s.keys := rfl
@[simp] theorem State.jump_tickAcc : (s.jump t).tickAcc = s.tickAcc := rfl
@[simp] theorem State.jump_fault : (s.jump t).fault = s.fault := rfl
@[simp] theorem State.jump_cfg : (s.jump t).cfg = s.cfg := rfl
@[simp] theorem State.jump_rnd : (s.jump t).rnd = s.rnd := rfl
@[simp] theorem State.jump_stepNo : (s.jump t).stepNo = s.stepNo := rfl
@[simp] theorem State.jump_reg (q : Reg) : (s.jump t).reg q = s.reg q := rfl
@[simp] theorem State.jump_byte (m : Addr) : (s.jump t).byte m = s.byte m := rfl
end jump

section rewind
variable (s : State)
@[simp] theorem State.rewind_R : (s.rewind).R = s.R := rfl
@[simp] theorem State.rewind_pc : (s.rewind).pc = s.pc - 2 := rfl
@[simp] theorem State.rewind_I : (s.rewind).I = s.I := rfl
@[simp] theorem State.rewind_sp : (s.rewind).sp = s.sp := rfl
@[simp] theorem State.rewind_stack : (s.rewind).stack = s.stack := rfl
@[simp] theorem State.rewind_DT : (s.rewind).DT = s.DT := rfl
@[simp] theorem State.rewind_ST : (s.rewind).ST = s.ST := rfl
@[simp] theorem State.rewind_mem : (s.rewind).mem = s.mem := rfl
@[simp] theorem State.rewind_pix : (s.rewind).pix = s.pix := rfl
@[simp] theorem State.rewind_redraw : (s.rewind).redraw = s.redraw := rfl
@[simp] theorem State.rewind_keys : (s.rewind).keys = s.keys := rfl
@[simp] theorem State.rewind_tickAcc : (s.rewind).tickAcc = s.tickAcc := rfl
@[simp] theorem State.rewind_fault : (s.rewind).fault = s.fault := rfl
@[simp] theorem State.rewind_cfg : (s.rewind).cfg = s.cfg := rfl
@[simp] theorem State.rewind_rnd : (s.rewind).rnd = s.rnd := rfl
@[simp] theorem State.rewind_stepNo : (s.rewind).stepNo = s.stepNo := rfl
@[simp] theorem State.rewind_reg (q : Reg) : (s.rewind).reg q = s.reg q := rfl
@[simp] theorem State.rewind_byte (m : Addr) : (s.rewind).byte m = s.byte m := rfl
end rewind

section push
variable (s : State) (h : s.sp.val < 16)
@[simp] theorem State.push_R : (s.push h).R = s.R := rfl
@[simp] theorem State.push_pc : (s.push h).pc = s.pc := rfl
@[simp] theorem State.push_I : (s.push h).I = s.I := rfl
@[simp] theorem State.push_sp : (s.push h).sp = ⟨s.sp.val + 1, by omega⟩ := rfl
@[simp] theorem State.push_stack : (s.push h).stack = s.stack.set s.sp.val s.pc := rfl
@[simp] theorem State.push_DT : (s.push h).DT = s.DT := rfl
@[simp] theorem State.push_ST : (s.push h).ST = s.ST := rfl
@[simp] theorem State.push_mem : (s.push h).mem = s.mem := rfl
@[simp] theorem State.push_pix : (s.push h).pix = s.pix := rfl
@[simp] theorem State.push_redraw : (s.push h).redraw = s.redraw := rfl
@[simp] theorem State.push_keys : (s.push h).keys = s.keys := rfl
@[simp] theorem State.push_tickAcc : (s.push h).tickAcc = s.tickAcc := rfl
@[simp] theorem State.push_fault : (s.push h).fault = s.fault := rfl
@[simp] theorem State.push_cfg : (s.push h).cfg = s.cfg := rfl
@[simp] theorem State.push_rnd : (s.push h).rnd = s.rnd := rfl
@[simp] theorem State.push_stepNo : (s.push h).stepNo = s.stepNo := rfl
@[simp] theorem State.push_reg (q : Reg) : (s.push h).reg q = s.reg q := rfl
@[simp] theorem State.push_byte (m : Addr) : (s.push h).byte m = s.byte m := rfl
end push

section pop
variable (s : State) (h : 0 < s.sp.val)
@[simp] theorem State.pop_R : (s.pop h).R = s.R := rfl
@[simp] theorem State.pop_pc : (s.pop h).pc = s.top h := rfl
@[simp] theorem State.pop_I : (s.pop h).I = s.I := rfl
@[simp] theorem State.pop_sp : (s.pop h).sp = ⟨s.sp.val - 1, by omega⟩ := rfl
@[simp] theorem State.pop_stack : (s.pop h).stack = s.stack := rfl
@[simp] theorem State.pop_DT : (s.pop h).DT = s.DT := rfl
@[simp] theorem State.pop_ST : (s.pop h).ST = s.ST := rfl
@[simp] theorem State.pop_mem : (s.pop h).mem = s.mem := rfl
@[simp] theorem State.pop_pix : (s.pop h).pix = s.pix := rfl
@[simp] theorem State.pop_redraw : (s.pop h).redraw = s.redraw := rfl
@[simp] theorem State.pop_keys : (s.pop h).keys = s.keys := rfl
@[simp] theorem State.pop_tickAcc : (s.pop h).tickAcc = s.tickAcc := rfl
@[simp] theorem State.pop_fault : (s.pop h).fault = s.fault := rfl
@[simp] theorem State.pop_cfg : (s.pop h).cfg = s.cfg := rfl
@[simp] theorem State.pop_rnd : (s.pop h).rnd = s.rnd := rfl
@[simp] theorem State.pop_stepNo : (s.pop h).stepNo = s.stepNo := rfl
@[simp] theorem State.pop_reg (q : Reg) : (s.pop h).reg q = s.reg q := rfl
@[simp] theorem State.pop_byte (m : Addr) : (s.pop h).byte m = s.byte m := rfl
end pop

section storeAtI
variable (s : State) (vs : List Byte)
@[simp] theorem State.storeAtI_R : (s.storeAtI vs).R = s.R := rfl
@[simp] theorem State.storeAtI_pc : (s.storeAtI vs).pc = s.pc := rfl
@[simp] theorem State.storeAtI_I : (s.storeAtI vs).I = s.I := rfl
@[simp] theorem State.storeAtI_sp : (s.storeAtI vs).sp = s.sp := rfl
@[simp] theorem State.storeAtI_stack : (s.storeAtI vs).stack = s.stack := rfl
@[simp] theorem State.storeAtI_DT : (s.storeAtI vs).DT = s.DT := rfl
@[simp] theorem State.storeAtI_ST : (s.storeAtI vs).ST = s.ST := rfl
@[simp] theorem State.storeAtI_mem : (s.storeAtI vs).mem = s.mem.writeBlock s.I 0 vs := rfl
@[simp] theorem State.storeAtI_pix : (s.storeAtI vs).pix = s.pix := rfl
@[simp] theorem State.storeAtI_redraw : (s.storeAtI vs).redraw = s.redraw := rfl
@[simp] theorem State.storeAtI_keys : (s.storeAtI vs).keys = s.keys := rfl
@[simp] theorem State.storeAtI_tickAcc : (s.storeAtI vs).tickAcc = s.tickAcc := rfl
@[simp] theorem State.storeAtI_fault : (s.storeAtI vs).fault = s.fault := rfl
@[simp] theorem State.storeAtI_cfg : (s.storeAtI vs).cfg = s.cfg := rfl
@[simp] theorem State.storeAtI_rnd : (s.storeAtI vs).rnd = s.rnd := rfl
@[simp] theorem State.storeAtI_stepNo : (s.storeAtI vs).stepNo = s.stepNo := rfl
@[simp] theorem State.storeAtI_reg (q : Reg) : (s.storeAtI vs).reg q = s.reg q := rfl
end storeAtI

section clearDisplay
variable (s : State)
@[simp] theorem State.clearDisplay_R : (s.clearDisplay).R = s.R := rfl
@[simp] theorem State.clearDisplay_pc : (s.clearDisplay).pc = s.pc := rfl
@[simp] theorem State.clearDisplay_I : (s.clearDisplay).I = s.I := rfl
@[simp] theorem State.clearDisplay_sp : (s.clearDisplay).sp = s.sp := rfl
@[simp] theorem State.clearDisplay_stack : (s.clearDisplay).stack = s.stack := rfl
@[simp] theorem State.clearDisplay_DT : (s.clearDisplay).DT = s.DT := rfl
@[simp] theorem State.clearDisplay_ST : (s.clearDisplay).ST = s.ST := rfl
@[simp] theorem State.clearDisplay_mem : (s.clearDisplay).mem = s.mem := rfl
@[simp] theorem State.clearDisplay_pix : (s.clearDisplay).pix = Display.blank := rfl
@[simp] theorem State.clearDisplay_redraw : (s.clearDisplay).redraw = true := rfl
@[simp] theorem State.clearDisplay_keys : (s.clearDisplay).keys = s.keys := rfl
@[simp] theorem State.clearDisplay_tickAcc : (s.clearDisplay).tickAcc = s.tickAcc := rfl
@[simp] theorem State.clearDisplay_fault : (s.clearDisplay).fault = s.fault := rfl
@[simp] theorem State.clearDisplay_cfg : (s.clearDisplay).cfg = s.cfg := rfl
@[simp] theorem State.clearDisplay_rnd : (s.clearDisplay).rnd = s.rnd := rfl
@[simp] theorem State.clearDisplay_stepNo : (s.clearDisplay).stepNo = s.stepNo := rfl
@[simp] theorem State.clearDisplay_reg (q : Reg) : (s.clearDisplay).reg q = s.reg q := rfl
@[simp] theorem State.clearDisplay_byte (m : Addr) : (s.clearDisplay).byte m = s.byte m := rfl
end clearDisplay

section endBlit
variable (s : State) (z : Blit)
@[simp] theorem State.endBlit_R : (s.endBlit z).R = s.R.set RF.val (collision z.hit) := rfl
@[simp] theorem State.endBlit_pc : (s.endBlit z).pc = s.pc := rfl
@[simp] theorem State.endBlit_I : (s.endBlit z).I = s.I := rfl
@[simp] theorem State.endBlit_sp : (s.endBlit z).sp = s.sp := rfl
@[simp] theorem State.endBlit_stack : (s.endBlit z).stack = s.stack := rfl
@[simp] theorem State.endBlit_DT : (s.endBlit z).DT = s.DT := rfl
@[simp] theorem State.endBlit_ST : (s.endBlit z).ST = s.ST := rfl
@[simp] theorem State.endBlit_mem : (s.endBlit z).mem = s.mem := rfl
@[simp] theorem State.endBlit_pix : (s.endBlit z).pix = z.pix := rfl
@[simp] theorem State.endBlit_redraw : (s.endBlit z).redraw = true := rfl
@[simp] theorem State.endBlit_keys : (s.endBlit z).keys = s.keys := rfl
@[simp] theorem State.endBlit_tickAcc : (s.endBlit z).tickAcc = s.tickAcc := rfl
@[simp] theorem State.endBlit_fault : (s.endBlit z).fault = s.fault := rfl
@[simp] theorem State.endBlit_cfg : (s.endBlit z).cfg = s.cfg := rfl
@[simp] theorem State.endBlit_rnd : (s.endBlit z).rnd = s.rnd := rfl
@[simp] theorem State.endBlit_stepNo : (s.endBlit z).stepNo = s.stepNo := rfl
@[simp] theorem State.endBlit_byte (m : Addr) : (s.endBlit z).byte m = s.byte m := rfl
end endBlit

section setDT
variable (s : State) (v : Byte)
@[simp] theorem State.setDT_R : (s.setDT v).R = s.R := rfl
@[simp] theorem State.setDT_pc : (s.setDT v).pc = s.pc := rfl
@[simp] theorem State.setDT_I : (s.setDT v).I = s.I := rfl
@[simp] theorem State.setDT_sp : (s.setDT v).sp = s.sp := rfl
@[simp] theorem State.setDT_stack : (s.setDT v).stack = s.stack := rfl
@[simp] theorem State.setDT_DT : (s.setDT v).DT = v := rfl
@[simp] theorem State.setDT_ST : (s.setDT v).ST = s.ST := rfl
@[simp] theorem State.setDT_mem : (s.setDT v).mem = s.mem := rfl
@[simp] theorem State.setDT_pix : (s.setDT v).pix = s.pix := rfl
@[simp] theorem State.setDT_redraw : (s.setDT v).redraw = s.redraw := rfl
@[simp] theorem State.setDT_keys : (s.setDT v).keys = s.keys := rfl
@[simp] theorem State.setDT_tickAcc : (s.setDT v).tickAcc = s.tickAcc := rfl
@[simp] theorem State.setDT_fault : (s.setDT v).fault = s.fault := rfl
@[simp] theorem State.setDT_cfg : (s.setDT v).cfg = s.cfg := rfl
@[simp] theorem State.setDT_rnd : (s.setDT v).rnd = s.rnd := rfl
@[simp] theorem State.setDT_stepNo : (s.setDT v).stepNo = s.stepNo := rfl
@[simp] theorem State.setDT_reg (q : Reg) : (s.setDT v).reg q = s.reg q := rfl
@[simp] theorem State.setDT_byte (m : Addr) : (s.setDT v).byte m = s.byte m := rfl
end setDT

section setST
variable (s : State) (v : Byte)
@[simp] theorem State.setST_R : (s.setST v).R = s.R := rfl
@[simp] theorem State.setST_pc : (s.setST v).pc = s.pc := rfl
@[simp] theorem State.setST_I : (s.setST v).I = s.I := rfl
@[simp] theorem State.setST_sp : (s.setST v).sp = s.sp := rfl
@[simp] theorem State.setST_stack : (s.setST v).stack = s.stack := rfl
@[simp] theorem State.setST_DT : (s.setST v).DT = s.DT := rfl
@[simp] theorem State.setST_ST : (s.setST v).ST = v := rfl
@[simp] theorem State.setST_mem : (s.setST v).mem = s.mem := rfl
@[simp] theorem State.setST_pix : (s.setST v).pix = s.pix := rfl
@[simp] theorem State.setST_redraw : (s.setST v).redraw = s.redraw := rfl
@[simp] theorem State.setST_keys : (s.setST v).keys = s.keys := rfl
@[simp] theorem State.setST_tickAcc : (s.setST v).tickAcc = s.tickAcc := rfl
@[simp] theorem State.setST_fault : (s.setST v).fault = s.fault := rfl
@[simp] theorem State.setST_cfg : (s.setST v).cfg = s.cfg := rfl
@[simp] theorem State.setST_rnd : (s.setST v).rnd = s.rnd := rfl
@[simp] theorem State.setST_stepNo : (s.setST v).stepNo = s.stepNo := rfl
@[simp] theorem State.setST_reg (q : Reg) : (s.setST v).reg q = s.reg q := rfl
@[simp] theorem State.setST_byte (m : Addr) : (s.setST v).byte m = s.byte m := rfl
end setST

section timerUpdate
variable (s : State) (dt : Nat)
@[simp] theorem State.timerUpdate_R : (s.timerUpdate dt).R = s.R := rfl
@[simp] theorem State.timerUpdate_pc : (s.timerUpdate dt).pc = s.pc := rfl
@[simp] theorem State.timerUpdate_I : (s.timerUpdate dt).I = s.I := rfl
@[simp] theorem State.timerUpdate_sp : (s.timerUpdate dt).sp = s.sp := rfl
@[simp] theorem State.timerUpdate_stack : (s.timerUpdate dt).stack = s.stack := rfl
@[simp] theorem State.timerUpdate_DT : (s.timerUpdate dt).DT = countDown s.DT (s.ticksDue dt) := rfl
@[simp] theorem State.timerUpdate_ST : (s.timerUpdate dt).ST = countDown s.ST (s.ticksDue dt) := rfl
@[simp] theorem State.timerUpdate_mem : (s.timerUpdate dt).mem = s.mem := rfl
@[simp] theorem State.timerUpdate_pix : (s.timerUpdate dt).pix = s.pix := rfl
@[simp] theorem State.timerUpdate_redraw : (s.timerUpdate dt).redraw = s.redraw := rfl
@[simp] theorem State.timerUpdate_keys : (s.timerUpdate dt).keys = s.keys := rfl
@[simp] theorem State.timerUpdate_tickAcc : (s.timerUpdate dt).tickAcc = (s.tickAcc + dt) % s.cfg.tickUnits := rfl
@[simp] theorem State.timerUpdate_fault : (s.timerUpdate dt).fault = s.fault := rfl
@[simp] theorem State.timerUpdate_cfg : (s.timerUpdate dt).cfg = s.cfg := rfl
@[simp] theorem State.timerUpdate_rnd : (s.timerUpdate dt).rnd = s.rnd := rfl
@[simp] theorem State.timerUpdate_stepNo : (s.timerUpdate dt).stepNo = s.stepNo := rfl
@[simp] theorem State.timerUpdate_reg (q : Reg) : (s.timerUpdate dt).reg q = s.reg q := rfl
@[simp] theorem State.timerUpdate_byte (m : Addr) : (s.timerUpdate dt).byte m = s.byte m := rfl
end timerUpdate

section takeFault
variable (s : State) (f : Fault)
@[simp] theorem State.takeFault_R : (s.takeFault f).R = s.R := rfl
@[simp] theorem State.takeFault_pc : (s.takeFault f).pc = s.pc := rfl
@[simp] theorem State.takeFault_I : (s.takeFault f).I = s.I := rfl
@[simp] theorem State.takeFault_sp : (s.takeFault f).sp = s.sp := rfl
@[simp] theorem State.takeFault_stack : (s.takeFault f).stack = s.stack := rfl
@[simp] theorem State.takeFault_DT : (s.takeFault f).DT = s.DT := rfl
@[simp] theorem State.takeFault_ST : (s.takeFault f).ST = s.ST := rfl
@[simp] theorem State.takeFault_mem : (s.takeFault f).mem = s.mem := rfl
@[simp] theorem State.takeFault_pix : (s.takeFault f).pix = s.pix := rfl
@[simp] theorem State.takeFault_redraw : (s.takeFault f).redraw = s.redraw := rfl
@[simp] theorem State.takeFault_keys : (s.takeFault f).keys = s.keys := rfl
@[simp] theorem State.takeFault_tickAcc : (s.takeFault f).tickAcc = s.tickAcc := rfl
@[simp] theorem State.takeFault_fault : (s.takeFault f).fault = some f := rfl
@[simp] theorem State.takeFault_cfg : (s.takeFault f).cfg = s.cfg := rfl
@[simp] theorem State.takeFault_rnd : (s.takeFault f).rnd = s.rnd := rfl
@[simp] theorem State.takeFault_stepNo : (s.takeFault f).stepNo = s.stepNo := rfl
@[simp] theorem State.takeFault_reg (q : Reg) : (s.takeFault f).reg q = s.reg q := rfl
@[simp] theorem State.takeFault_byte (m : Addr) : (s.takeFault f).byte m = s.byte m := rfl
end takeFault

section enter
variable (s : State) (v : Byte)
@[simp] theorem State.enter_R : (s.enter v).R = s.R := rfl
@[simp] theorem State.enter_pc : (s.enter v).pc = s.pc + 2 := rfl
@[simp] theorem State.enter_I : (s.enter v).I = s.I := rfl
@[simp] theorem State.enter_sp : (s.enter v).sp = s.sp := rfl
@[simp] theorem State.enter_stack : (s.enter v).stack = s.stack := rfl
@[simp] theorem State.enter_DT : (s.enter v).DT = s.DT := rfl
@[simp] theorem State.enter_ST : (s.enter v).ST = s.ST := rfl
@[simp] theorem State.enter_mem : (s.enter v).mem = s.mem := rfl
@[simp] theorem State.enter_pix : (s.enter v).pix = s.pix := rfl
@[simp] theorem State.enter_redraw : (s.enter v).redraw = s.redraw := rfl
@[simp] theorem State.enter_keys : (s.enter v).keys = s.keys := rfl
@[simp] theorem State.enter_tickAcc : (s.enter v).tickAcc = s.tickAcc := rfl
@[simp] theorem State.enter_fault : (s.enter v).fault = s.fault := rfl
@[simp] theorem State.enter_cfg : (s.enter v).cfg = s.cfg := rfl
@[simp] theorem State.enter_rnd : (s.enter v).rnd = v := rfl
@[simp] theorem State.enter_stepNo : (s.enter v).stepNo = s.stepNo + 1 := rfl
@[simp] theorem State.enter_reg (q : Reg) : (s.enter v).reg q = s.reg q := rfl
@[simp] theorem State.enter_byte (m : Addr) : (s.enter v).byte m = s.byte m := rfl
end enter

section skipIf
variable (s : State) (c : Bool)
@[simp] theorem State.skipIf_R : (s.skipIf c).R = s.R := by cases c <;> rfl
@[simp] theorem State.skipIf_pc : (s.skipIf c).pc = if c then s.pc + 2 else s.pc := by cases c <;> rfl
@[simp] theorem State.skipIf_I : (s.skipIf c).I = s.I := by cases c <;> rfl
@[simp] theorem State.skipIf_sp : (s.skipIf c).sp = s.sp := by cases c <;> rfl
@[simp] theorem State.skipIf_stack : (s.skipIf c).stack = s.stack := by cases c <;> rfl
@[simp] theorem State.skipIf_DT : (s.skipIf c).DT = s.DT := by cases c <;> rfl
@[simp] theorem State.skipIf_ST : (s.skipIf c).ST = s.ST := by cases c <;> rfl
@[simp] theorem State.skipIf_mem : (s.skipIf c).mem = s.mem := by cases c <;> rfl
@[simp] theorem State.skipIf_pix : (s.skipIf c).pix = s.pix := by cases c <;> rfl
@[simp] theorem State.skipIf_redraw : (s.skipIf c).redraw = s.redraw := by cases c <;> rfl
@[simp] theorem State.skipIf_keys : (s.skipIf c).keys = s.keys := by cases c <;> rfl
@[simp] theorem State.skipIf_tickAcc : (s.skipIf c).tickAcc = s.tickAcc := by cases c <;> rfl
@[simp] theorem State.skipIf_fault : (s.skipIf c).fault = s.fault := by cases c <;> rfl
@[simp] theorem State.skipIf_cfg : (s.skipIf c).cfg = s.cfg := by cases c <;> rfl
@[simp] theorem State.skipIf_rnd : (s.skipIf c).rnd = s.rnd := by cases c <;> rfl
@[simp] theorem State.skipIf_stepNo : (s.skipIf c).stepNo = s.stepNo := by cases c <;> rfl
@[simp] theorem State.skipIf_reg (q : Reg) : (s.skipIf c).reg q = s.reg q := by cases c <;> rfl
@[simp] theorem State.skipIf_byte (m : Addr) : (s.skipIf c).byte m = s.byte m := by cases c <;> rfl
end skipIf

end Sys2Proof.Machine
end

