-- ==== Sys2Proof/Laws/Display.lean ====
section
/-! SUPPORT. The laws of the display: a cell read after a write, the cleared display, and the one
lemma about each part of the sprite blit. -/

namespace Sys2Proof.Machine

/-- A cell after a write: the new value at its own place inside the grid, the old value elsewhere. -/
theorem Display.get_put (d : Display) (c r : Nat) (b : Bool) (col row : Nat) :
    (d.put c r b).get col row =
      if c = col ∧ r = row ∧ col < 64 ∧ row < 32 then b else d.get col row := by
  unfold Display.put Display.get
  by_cases hg : col < 64 ∧ row < 32
  · by_cases hp : c < 64 ∧ r < 32
    · simp only [hg, hp, and_self, dite_true, and_true]
      by_cases hr : r = row
      · subst hr
        by_cases hc : c = col
        · subst hc; simp
        · simp [hc]
      · simp [hr]
    · have : ¬ (c = col ∧ r = row) := by rintro ⟨rfl, rfl⟩; exact hp hg
      simp only [hp, dite_false, hg, and_self, dite_true, and_true, this, if_false]
  · have : ¬ (c = col ∧ r = row ∧ col < 64 ∧ row < 32) := fun h => hg h.2.2
    rw [if_neg this]
    simp only [hg, dite_false]

/-- Every cell of the cleared display is dark. -/
@[simp] theorem Display.get_blank (col row : Nat) : Display.blank.get col row = false := by
  unfold Display.get Display.blank
  split <;> simp

/-- There is no cell outside the grid. -/
theorem Display.get_outside (d : Display) {col row : Nat} (h : ¬ (col < 64 ∧ row < 32)) :
    d.get col row = false := by simp only [Display.get, h, dite_false]

/-- Two displays with the same cells are the same. -/
theorem Display.ext_get {d e : Display}
    (h : ∀ col row, col < 64 → row < 32 → d.get col row = e.get col row) : d = e := by
  ext row hr col hc
  simpa [Display.get, hr, hc] using h col row hc hr

/-- Whether column `c` of a row drawn from `cx` is at `col`, has its bit set and lies in the grid. -/
def rowHits (cx row : Nat) (b : Byte) (c col r : Nat) : Bool :=
  decide (cx + c = col) && decide (row = r) && b.getLsbD (7 - c) && decide (col ≤ 63) &&
    decide (r ≤ 31)

theorem Blit.pixel_get (cx row : Nat) (b : Byte) (z : Blit) (c col r : Nat) :
    (Blit.pixel cx row b z c).pix.get col r = (z.pix.get col r ^^ rowHits cx row b c col r) := by
  unfold Blit.pixel rowHits
  by_cases hb : b.getLsbD (7 - c) = true
  · by_cases hg : cx + c ≤ 63 ∧ row ≤ 31
    · simp only [hb, hg, and_self, if_true, Display.get_put]
      by_cases h : cx + c = col ∧ row = r
      · obtain ⟨rfl, rfl⟩ := h
        have h1 : cx + c < 64 := by omega
        have h2 : row < 32 := by omega
        simp [h1, h2, hg.1, hg.2]
      · have : ¬ (cx + c = col ∧ row = r ∧ col < 64 ∧ r < 32) := fun k => h ⟨k.1, k.2.1⟩
        simp only [this, if_false]
        rcases not_and_or.mp h with h | h <;> simp [h]
    · simp only [hb, hg, if_true, if_false]
      by_cases h : cx + c = col ∧ row = r
      · obtain ⟨rfl, rfl⟩ := h
        rcases not_and_or.mp hg with h | h <;> simp [h]
      · rcases not_and_or.mp h with h | h <;> simp [h]
  · simp [hb]

theorem Blit.pixel_hit (cx row : Nat) (b : Byte) (z : Blit) (c : Nat) :
    (Blit.pixel cx row b z c).hit =
      (z.hit || (rowHits cx row b c (cx + c) row && z.pix.get (cx + c) row)) := by
  unfold Blit.pixel rowHits
  by_cases hb : b.getLsbD (7 - c) = true
  · by_cases hg : cx + c ≤ 63 ∧ row ≤ 31
    · simp [hb, hg.1, hg.2]
    · rcases not_and_or.mp hg with h | h <;> simp [hb, h]
  · simp [hb]

/-- The bit a sprite row drawn from `(cx, row)` has for the cell `(col, r)`: bit `7 - (col - cx)` of
its byte, inside the grid only (43_display.md R101, R102). -/
def rowBit (cx row : Nat) (b : Byte) (col r : Nat) : Bool :=
  decide (cx ≤ col) && decide (col < cx + 8) && decide (row = r) && b.getLsbD (7 - (col - cx)) &&
    decide (col ≤ 63) && decide (r ≤ 31)

/-- A cell after the first `k` columns of a row. -/
theorem Blit.foldl_pixel_get (cx row : Nat) (b : Byte) (z : Blit) (k col r : Nat) :
    ((List.range k).foldl (Blit.pixel cx row b) z).pix.get col r =
      (z.pix.get col r ^^ (decide (col < cx + k) && decide (cx ≤ col) && decide (row = r) &&
        b.getLsbD (7 - (col - cx)) && decide (col ≤ 63) && decide (r ≤ 31))) := by
  induction k with
  | zero =>
    by_cases h : cx ≤ col
    · have : ¬ col < cx := by omega
      simp [this]
    · simp [h]
  | succ k ih =>
    rw [List.range_succ, List.foldl_append, List.foldl_cons, List.foldl_nil, Blit.pixel_get, ih]
    unfold rowHits
    by_cases hk : cx + k = col
    · subst hk
      have h1 : ¬ cx + k < cx + k := by omega
      have h2 : cx + k < cx + (k + 1) := by omega
      simp [h2]
    · have h2 : col < cx + (k + 1) ↔ col < cx + k := by omega
      simp [hk, h2]

/-- A cell after a whole sprite row. -/
theorem Blit.row_get (cx row : Nat) (b : Byte) (z : Blit) (col r : Nat) :
    (Blit.row cx row b z).pix.get col r = (z.pix.get col r ^^ rowBit cx row b col r) := by
  unfold Blit.row rowBit
  rw [Blit.foldl_pixel_get, Bool.and_comm (decide (cx ≤ col))]

/-- The collision of the first `k` columns of a row. -/
theorem Blit.foldl_pixel_hit (cx row : Nat) (b : Byte) (z : Blit) (k : Nat) (hk : k ≤ 8) :
    ((List.range k).foldl (Blit.pixel cx row b) z).hit = true ↔
      z.hit = true ∨ ∃ c < k, rowBit cx row b (cx + c) row = true ∧
        z.pix.get (cx + c) row = true := by
  induction k with
  | zero => simp
  | succ k ih =>
    rw [List.range_succ, List.foldl_append, List.foldl_cons, List.foldl_nil, Blit.pixel_hit,
      Bool.or_eq_true, ih (by omega), Blit.foldl_pixel_get]
    have hself : ¬ cx + k < cx + k := by omega
    have hbit : rowHits cx row b k (cx + k) row = rowBit cx row b (cx + k) row := by
      have h8 : cx + k < cx + 8 := by omega
      simp [rowHits, rowBit, h8]
    simp only [hself, decide_false, Bool.false_and, Bool.xor_false, Bool.and_eq_true, hbit]
    constructor
    · rintro ((h | ⟨c, hc, h⟩) | h)
      · exact .inl h
      · exact .inr ⟨c, by omega, h⟩
      · exact .inr ⟨k, by omega, h⟩
    · rintro (h | ⟨c, hc, h⟩)
      · exact .inl (.inl h)
      · rcases Nat.lt_succ_iff_lt_or_eq.mp hc with hc | rfl
        · exact .inl (.inr ⟨c, hc, h⟩)
        · exact .inr h

/-- The collision of a whole sprite row: some lit cell has its bit set (R103). -/
theorem Blit.row_hit (cx row : Nat) (b : Byte) (z : Blit) :
    (Blit.row cx row b z).hit = true ↔
      z.hit = true ∨ ∃ col, rowBit cx row b col row = true ∧ z.pix.get col row = true := by
  rw [Blit.row, Blit.foldl_pixel_hit cx row b z 8 (le_refl 8)]
  refine or_congr_right ⟨fun ⟨c, _, h⟩ => ⟨cx + c, h⟩, fun ⟨col, h⟩ => ?_⟩
  have hb := h.1
  simp only [rowBit, Bool.and_eq_true, decide_eq_true_eq] at hb
  exact ⟨col - cx, by omega, by rwa [show cx + (col - cx) = col by omega]⟩

/-- The bit a sprite drawn at `(cx, cy)` has for the cell `(col, row)`, inside the grid only. -/
def spriteBit (cx : Nat) : Nat → List Byte → Nat → Nat → Bool
  | _, [], _, _ => false
  | cy, b :: bs, col, row => rowBit cx cy b col row || spriteBit cx (cy + 1) bs col row

theorem spriteBit_of_lt (cx cy : Nat) (bs : List Byte) (col row : Nat) (h : row < cy) :
    spriteBit cx cy bs col row = false := by
  induction bs generalizing cy with
  | nil => rfl
  | cons b bs ih =>
    have : ¬ cy = row := by omega
    simp [spriteBit, rowBit, this, ih (cy + 1) (by omega)]

/-- Every cell after a sprite is the old cell XOR the sprite's bit for it (R100). -/
theorem Blit.rows_get (cx cy : Nat) (bs : List Byte) (z : Blit) (col row : Nat) :
    (Blit.rows cx cy bs z).pix.get col row = (z.pix.get col row ^^ spriteBit cx cy bs col row) := by
  induction bs generalizing cy z with
  | nil => simp [Blit.rows, spriteBit]
  | cons b bs ih =>
    rw [Blit.rows, ih, Blit.row_get, spriteBit]
    by_cases h : cy = row
    · simp [spriteBit_of_lt cx (cy + 1) bs col row (by omega)]
    · simp [rowBit, h]

/-- The collision of a sprite: some cell was lit and has its bit set (R103). -/
theorem Blit.rows_hit (cx cy : Nat) (bs : List Byte) (z : Blit) :
    (Blit.rows cx cy bs z).hit = true ↔
      z.hit = true ∨ ∃ col row, spriteBit cx cy bs col row = true ∧ z.pix.get col row = true := by
  induction bs generalizing cy z with
  | nil => simp [Blit.rows, spriteBit]
  | cons b bs ih =>
    have hrow : ∀ {col row}, rowBit cx cy b col row = true → row = cy := by
      intro col row h
      simp only [rowBit, Bool.and_eq_true, decide_eq_true_eq] at h
      omega
    rw [Blit.rows, ih, Blit.row_hit]
    constructor
    · rintro ((h | ⟨col, h⟩) | ⟨col, row, hs, hl⟩)
      · exact .inl h
      · exact .inr ⟨col, cy, by simp [spriteBit, h.1], h.2⟩
      · refine .inr ⟨col, row, by simp [spriteBit, hs], ?_⟩
        rw [Blit.row_get] at hl
        cases hb : rowBit cx cy b col row with
        | false => simpa [hb] using hl
        | true =>
          have := spriteBit_of_lt cx (cy + 1) bs col row (by have := hrow hb; omega)
          simp [this] at hs
    · rintro (h | ⟨col, row, hs, hl⟩)
      · exact .inl (.inl h)
      · cases hb : rowBit cx cy b col row with
        | true =>
          obtain rfl := hrow hb
          exact .inl (.inr ⟨col, hb, hl⟩)
        | false =>
          refine .inr ⟨col, row, by simpa [spriteBit, hb] using hs, ?_⟩
          rw [Blit.row_get, hb, Bool.xor_false]
          exact hl

end Sys2Proof.Machine
end

