-- ==== Sys2Proof/Laws/Memory.lean ====
section
/-! SUPPORT. The laws of memory: read after write, a write elsewhere, the canonical form kept by every
memory operation, and the one lemma about a block write. -/

namespace Sys2Proof.Machine

theorem Memory.lookup_append_cell (a b : Nat) (v : Byte) (m : Memory) :
    Memory.lookup b (Memory.cell a v ++ m) =
      if v = resetByte a then Memory.lookup b m
      else if a = b then v else Memory.lookup b m := by
  by_cases hv : v = resetByte a <;> simp [Memory.cell, hv, Memory.lookup]

/-- An address below every listed address is unlisted. -/
theorem Memory.lookup_of_lt (a : Nat) (m : Memory) (h : ∀ c ∈ m, a < c.1) :
    Memory.lookup a m = resetByte a := by
  induction m with
  | nil => rfl
  | cons c m ih =>
    obtain ⟨b, u⟩ := c
    have hb : b ≠ a := by have := h (b, u) (by simp); simp at this; omega
    simp only [Memory.lookup, hb, if_false]
    exact ih fun c hc => h c (by simp [hc])

/-- What a put does to every read. -/
theorem Memory.lookup_put (a b : Nat) (v : Byte) (m : Memory)
    (h : m.Pairwise (fun c d => c.1 < d.1)) :
    Memory.lookup b (Memory.put a v m) = if a = b then v else Memory.lookup b m := by
  induction m with
  | nil =>
    have := Memory.lookup_append_cell a b v []
    simp only [List.append_nil] at this
    rw [Memory.put, this]
    by_cases hab : a = b
    · subst hab; simp [Memory.lookup, eq_comm]
    · simp [hab]
  | cons c m ih =>
    obtain ⟨e, u⟩ := c
    obtain ⟨hlt, hm⟩ := List.pairwise_cons.mp h
    rw [Memory.put]
    split
    · rename_i hae
      rw [Memory.lookup_append_cell]
      by_cases hab : a = b
      · subst hab
        have : Memory.lookup a ((e, u) :: m) = resetByte a :=
          Memory.lookup_of_lt a _ (by
            intro c hc
            rcases List.mem_cons.mp hc with rfl | hc
            · exact hae
            · exact lt_trans hae (hlt c hc))
        simp [this, eq_comm]
      · simp [hab]
    · split
      · rename_i _ hae
        subst hae
        rw [Memory.lookup_append_cell]
        by_cases hab : a = b
        · subst hab
          simp [Memory.lookup_of_lt a m hlt, eq_comm]
        · simp [hab, Memory.lookup]
      · rename_i _ hae
        simp only [Memory.lookup, ih hm]
        by_cases heb : e = b
        · subst heb; simp [hae]
        · simp [heb]

/-- A cell of a put is the new byte's or an old one. -/
theorem Memory.mem_put {a : Nat} {v : Byte} {m : Memory} {c : Host.Cell}
    (h : c ∈ Memory.put a v m) : (c = (a, v) ∧ v ≠ resetByte a) ∨ c ∈ m := by
  have hcell : ∀ {m'}, c ∈ Memory.cell a v ++ m' → (c = (a, v) ∧ v ≠ resetByte a) ∨ c ∈ m' := by
    intro m' hc
    by_cases hv : v = resetByte a <;> simp_all [Memory.cell]
  induction m with
  | nil => simpa [Memory.put] using hcell (m' := []) (by simpa [Memory.put] using h)
  | cons d m ih =>
    obtain ⟨e, u⟩ := d
    rw [Memory.put] at h
    split at h
    · exact hcell h
    · split at h
      · exact (hcell h).imp_right (List.mem_cons_of_mem _)
      · rcases List.mem_cons.mp h with rfl | h
        · simp
        · exact (ih h).imp_right (List.mem_cons_of_mem _)

theorem Memory.pairwise_put (a : Nat) (v : Byte) (m : Memory)
    (h : m.Pairwise (fun c d => c.1 < d.1)) :
    (Memory.put a v m).Pairwise (fun c d => c.1 < d.1) := by
  have hcell : ∀ m' : Memory, m'.Pairwise (fun c d => c.1 < d.1) → (∀ c ∈ m', a < c.1) →
      (Memory.cell a v ++ m').Pairwise (fun c d => c.1 < d.1) := by
    intro m' hm' hlt
    by_cases hv : v = resetByte a
    · simpa [Memory.cell, hv] using hm'
    · simpa [Memory.cell, hv] using ⟨fun x y hxy => hlt (x, y) hxy, hm'⟩
  induction m with
  | nil => simpa [Memory.put] using hcell [] List.Pairwise.nil (by simp)
  | cons d m ih =>
    obtain ⟨e, u⟩ := d
    obtain ⟨hlt, hm⟩ := List.pairwise_cons.mp h
    rw [Memory.put]
    split
    · rename_i hae
      refine hcell _ h fun c hc => ?_
      rcases List.mem_cons.mp hc with rfl | hc
      · exact hae
      · exact lt_trans hae (hlt c hc)
    · split
      · rename_i _ hae
        subst hae
        exact hcell _ hm hlt
      · rename_i hge hae
        refine List.pairwise_cons.mpr ⟨fun c hc => ?_, ih hm⟩
        rcases Memory.mem_put hc with ⟨rfl, -⟩ | hc
        · simp only; omega
        · exact hlt c hc

theorem Memory.put_wf {a : Nat} {v : Byte} {m : Memory} (ha : a < 0x1000) (h : m.wf) :
    (Memory.put a v m).wf := by
  refine ⟨Memory.pairwise_put a v m h.1, fun c hc => ?_⟩
  rcases Memory.mem_put hc with ⟨rfl, hv⟩ | hc
  · exact ⟨ha, hv⟩
  · exact h.2 c hc

/-- Every write keeps the canonical form. -/
theorem Memory.write_wf {m : Memory} (a : Addr) (v : Byte) (h : m.wf) : (m.write a v).wf :=
  Memory.put_wf a.isLt h

/-- Read after write: the byte written at its own address, the old byte elsewhere. -/
theorem Memory.read_write {m : Memory} (h : m.wf) (a b : Addr) (v : Byte) :
    (m.write a v).read b = if a = b then v else m.read b := by
  simp only [Memory.read, Memory.write, Memory.lookup_put _ _ _ _ h.1, BitVec.toNat_inj]

/-- Every block write keeps the canonical form. -/
theorem Memory.writeBlock_wf {m : Memory} (base : Addr) (k : Nat) (vs : List Byte) (h : m.wf) :
    (m.writeBlock base k vs).wf := by
  induction vs generalizing k m with
  | nil => exact h
  | cons v vs ih => exact ih (k + 1) (Memory.write_wf _ _ h)

/-- Placing a word keeps the canonical form. -/
theorem Memory.placeWord_wf {m : Memory} (pc w : Word) (h : m.wf) : (m.placeWord pc w).wf :=
  Memory.write_wf _ _ (Memory.write_wf _ _ h)

/-- Different offsets within one turn of the address space are different addresses. -/
theorem dataAddr_inj {base : Addr} {j k : Nat} (hj : j < 0x1000) (hk : k < 0x1000) :
    dataAddr base j = dataAddr base k ↔ j = k := by
  have hb := base.isLt
  constructor
  · intro h
    have := congrArg BitVec.toNat h
    simp only [dataAddr, A12, BitVec.toNat_ofNat] at this
    omega
  · rintro rfl; rfl

/-- An address no byte of the block goes to keeps its byte. -/
theorem Memory.read_writeBlock_other {m : Memory} (h : m.wf) (base a : Addr) (k : Nat)
    (vs : List Byte) (ha : ∀ j < vs.length, dataAddr base (k + j) ≠ a) :
    (m.writeBlock base k vs).read a = m.read a := by
  induction vs generalizing k m with
  | nil => rfl
  | cons v vs ih =>
    rw [Memory.writeBlock, ih (Memory.write_wf _ _ h) (k + 1), Memory.read_write h, if_neg]
    · exact ha 0 (by simp)
    · intro j hj
      have := ha (j + 1) (by simpa using hj)
      rwa [show k + 1 + j = k + (j + 1) by omega]

/-- Byte `j` of a block of at most 4096 bytes is found at `A12(base + k + j)`. -/
theorem Memory.read_writeBlock {m : Memory} (h : m.wf) (base : Addr) (k j : Nat) (vs : List Byte)
    (hj : j < vs.length) (hlen : k + vs.length ≤ 0x1000) :
    (m.writeBlock base k vs).read (dataAddr base (k + j)) = vs[j] := by
  induction vs generalizing k j m with
  | nil => simp at hj
  | cons v vs ih =>
    simp only [List.length_cons] at hj hlen
    rw [Memory.writeBlock]
    cases j with
    | zero =>
      rw [Memory.read_writeBlock_other (Memory.write_wf _ _ h), Memory.read_write h]
      · simp
      · intro i hi
        rw [Ne, dataAddr_inj (by omega) (by omega)]
        omega
    | succ j =>
      rw [show k + (j + 1) = k + 1 + j by omega, ih (Memory.write_wf _ _ h) (k + 1) j (by omega)
        (by omega)]
      simp

end Sys2Proof.Machine
end

