-- ==== Sys2Proof/Laws/Ops.lean ====
section
/-! SUPPORT. One lemma for each shared operation over registers, the stack, addresses, flags, keys,
timers and the fetch, which says what the operation gives in plain arithmetic. -/

namespace Sys2Proof.Machine

/-! ## Registers -/

theorem State.reg_setReg (s : State) (r q : Reg) (v : Byte) :
    (s.setReg r v).reg q = if q = r then v else s.reg q := by
  simp only [State.reg, State.setReg_R, Vector.get_eq_getElem, Vector.getElem_set, Fin.val_inj]
  simp [eq_comm]

theorem State.reg_setRegThenFlag (s : State) (r q : Reg) (v f : Byte) :
    (s.setRegThenFlag r v f).reg q = if q = RF then f else if q = r then v else s.reg q := by
  simp only [State.setRegThenFlag, State.reg_setReg]

theorem State.reg_setFlagThenReg (s : State) (r q : Reg) (v f : Byte) :
    (s.setFlagThenReg r v f).reg q = if q = r then v else if q = RF then f else s.reg q := by
  simp only [State.setFlagThenReg, State.reg_setReg]

theorem State.reg_endBlit (s : State) (z : Blit) (q : Reg) :
    (s.endBlit z).reg q = if q = RF then collision z.hit else s.reg q :=
  State.reg_setReg s RF q _

theorem State.reg_loadRegs (s : State) (x q : Reg) :
    (s.loadRegs x).reg q = if q ≤ x then s.byte (dataAddr s.I q.val) else s.reg q := by
  simp [State.reg, Vector.get_eq_getElem]

theorem State.regsUpTo_length (s : State) (x : Reg) : (s.regsUpTo x).length = x.val + 1 := by
  have := x.isLt
  simp only [State.regsUpTo, List.length_take, Vector.length_toList]
  omega

theorem State.regsUpTo_getElem (s : State) (x : Reg) (k : Nat) (h : k < (s.regsUpTo x).length) :
    (s.regsUpTo x)[k] = s.reg ⟨k, by have := x.isLt; rw [State.regsUpTo_length] at h; omega⟩ := by
  simp [State.regsUpTo, State.reg, Vector.get_eq_getElem]

/-! ## Stack -/

theorem State.push_entry (s : State) (h : s.sp.val < 16) (j : Fin 16) :
    (s.push h).stack.get j = if j.val = s.sp.val then s.pc else s.stack.get j := by
  simp only [State.push_stack, Vector.get_eq_getElem, Vector.getElem_set]
  simp [eq_comm]

theorem State.top_eq (s : State) (h : 0 < s.sp.val) (j : Fin 16) (hj : j.val + 1 = s.sp.val) :
    s.top h = s.stack.get j := by
  have : s.sp.val - 1 = j.val := by omega
  simp [State.top, this, Vector.get_eq_getElem]

/-! ## Addresses, arithmetic, flags -/

@[simp] theorem A12_toNat (v : Nat) : (A12 v).toNat = v % 0x1000 := by simp [A12]

@[simp] theorem dataAddr_toNat (base : Addr) (k : Nat) :
    (dataAddr base k).toNat = (base.toNat + k) % 0x1000 := A12_toNat _

theorem zext16_toNat (nnn : Addr) : (zext16 nnn).toNat = nnn.toNat := by
  have := nnn.isLt
  simp only [zext16, BitVec.toNat_setWidth]
  omega

/-- The target of `Bnnn` does not wrap (R76). -/
theorem jumpPlus_toNat (nnn : Addr) (v : Byte) :
    (jumpPlus nnn v).toNat = nnn.toNat + v.toNat := by
  have := nnn.isLt
  have := v.isLt
  simp only [jumpPlus, zext16, BitVec.toNat_add, BitVec.toNat_setWidth]
  omega

theorem add8_toNat (a b : Byte) : (add8 a b).toNat = (a.toNat + b.toNat) % 256 := by simp [add8]

theorem sub8_toNat (a b : Byte) : (sub8 a b).toNat = (a.toNat + 256 - b.toNat) % 256 := by
  simp [sub8]

theorem shiftRight1_toNat (v : Byte) : (shiftRight1 v).toNat = v.toNat / 2 := by
  simp [shiftRight1, Nat.shiftRight_eq_div_pow]

theorem shiftLeft1_toNat (v : Byte) : (shiftLeft1 v).toNat = v.toNat * 2 % 256 := by
  simp [shiftLeft1, Nat.shiftLeft_eq]

theorem shiftedOutRight_toNat (v : Byte) : (shiftedOutRight v).toNat = v.toNat % 2 := by
  simp [shiftedOutRight, Nat.and_one_is_mod]

theorem shiftedOutLeft_toNat (v : Byte) : (shiftedOutLeft v).toNat = v.toNat / 128 := by
  have hv := v.isLt
  have h1 : (1 : Byte).toNat = 1 := rfl
  simp only [shiftedOutLeft, BitVec.toNat_and, BitVec.toNat_ushiftRight, h1,
    Nat.shiftRight_eq_div_pow, Nat.and_one_is_mod]
  omega

/-- `t` ticks stop at 0 (R126). -/
@[simp] theorem countDown_toNat (v : Byte) (t : Nat) : (countDown v t).toNat = v.toNat - t := by
  have := v.isLt
  simp only [countDown, BitVec.toNat_ofNat]
  omega

/-! ## Keys -/

theorem lowestKey_none (keys : Word) : lowestKey keys = none ↔ keys = 0 := by
  unfold lowestKey
  rw [List.find?_eq_none]
  constructor
  · intro h
    ext i hi
    simpa [BitVec.getLsbD_eq_getElem hi] using h i (by simpa using hi)
  · rintro rfl k -
    simp

/-- The key `lowestKey` names is down and no lower one is (R108). -/
theorem lowestKey_some {keys : Word} {k : Nat} (h : lowestKey keys = some k) :
    k < 16 ∧ keys.getLsbD k = true ∧ ∀ j < k, keys.getLsbD j = false := by
  unfold lowestKey at h
  rw [List.find?_range_eq_some] at h
  obtain ⟨hd, hk, hlt⟩ := h
  exact ⟨by simpa using hk, hd, fun j hj => by simpa using hlt j hj⟩

/-! ## Fetch -/

/-- A fetch in range gives the word at `pc`; any other gives the fault (R47). -/
theorem fetch_eq (s : State) :
    fetch s = if s.pc.toNat ≤ 0xFFE then .ok (s.mem.wordAt s.pc)
      else .error (.programCounterOutOfRange s.pc) := by
  unfold fetch
  by_cases h : s.pc.toNat ≤ 0xFFE
  · have : ¬ s.pc > 0xFFE := by simp [BitVec.lt_def]; omega
    rw [if_neg this, if_pos h]
  · have : s.pc > 0xFFE := by simp [BitVec.lt_def]; omega
    rw [if_pos this, if_neg h]

theorem wordOfBytes_toNat (hi lo : Byte) :
    (wordOfBytes hi lo).toNat = hi.toNat * 256 + lo.toNat := by
  have := hi.isLt
  have := lo.isLt
  simp only [wordOfBytes, BitVec.toNat_ofNat]
  omega

/-- The two bytes of a word form it again (R45). -/
@[simp] theorem wordOfBytes_bytes (w : Word) : wordOfBytes (highByte w) (lowByte w) = w := by
  have := w.isLt
  apply BitVec.eq_of_toNat_eq
  rw [wordOfBytes_toNat]
  simp only [highByte, lowByte, bits, BitVec.toNat_ofNat]
  omega

theorem fetchAddr_toNat (pc : Word) : (fetchAddr pc).toNat = pc.toNat % 0x1000 := by
  simp [fetchAddr]

/-- A word placed at `pc` is the word read there. -/
theorem Memory.wordAt_placeWord {m : Memory} (h : m.wf) (pc w : Word) :
    (m.placeWord pc w).wordAt pc = w := by
  have hne : fetchAddr (pc + 1) ≠ fetchAddr pc := by
    intro he
    have h1 : (1 : Word).toNat = 1 := rfl
    have := congrArg BitVec.toNat he
    simp only [fetchAddr_toNat, BitVec.toNat_add, h1] at this
    omega
  have hw := Memory.write_wf (fetchAddr pc) (highByte w) h
  rw [Memory.wordAt, Memory.placeWord, Memory.read_write hw, Memory.read_write hw, if_neg hne,
    if_pos rfl, Memory.read_write h, if_pos rfl, wordOfBytes_bytes]

end Sys2Proof.Machine
end

