-- ==== Sys2Proof/Laws/Exec.lean ====
section
/-! SUPPORT. One spec lemma per instruction, so that no later proof unfolds a meaning, and the
inversion lemmas of a cycle: everything a step can do. -/

namespace Sys2Proof.Machine

section Meanings
variable (s : State) (x y : Reg) (kk : Byte) (nnn : Addr) (n : Nat)

theorem exec_cls : exec .cls s = .next s.clearDisplay := rfl
theorem exec_ret_pop (h : 0 < s.sp.val) : exec .ret s = .next (s.pop h) := dif_pos h
theorem exec_ret_empty (h : s.sp.val = 0) : exec .ret s = .fault (.stackUnderflow s.pcF) :=
  dif_neg (by omega)
theorem exec_jp : exec (.jp nnn) s = .next (s.jump (zext16 nnn)) := rfl
theorem exec_call_push (h : s.sp.val < 16) :
    exec (.call nnn) s = .next ((s.push h).jump (zext16 nnn)) := dif_pos h
theorem exec_call_full (h : s.sp.val = 16) :
    exec (.call nnn) s = .fault (.stackOverflow s.pcF) := dif_neg (by omega)
theorem exec_seImm : exec (.seImm x kk) s = .next (s.skipIf (s.reg x == kk)) := rfl
theorem exec_sneImm : exec (.sneImm x kk) s = .next (s.skipIf (s.reg x != kk)) := rfl
theorem exec_seReg : exec (.seReg x y) s = .next (s.skipIf (s.reg x == s.reg y)) := rfl
theorem exec_ldImm : exec (.ldImm x kk) s = .next (s.setReg x kk) := rfl
theorem exec_addImm : exec (.addImm x kk) s = .next (s.setReg x (add8 (s.reg x) kk)) := rfl
theorem exec_ldReg : exec (.ldReg x y) s = .next (s.setReg x (s.reg y)) := rfl
theorem exec_or : exec (.or x y) s = .next (s.setReg x (s.reg x ||| s.reg y)) := rfl
theorem exec_and : exec (.and x y) s = .next (s.setReg x (s.reg x &&& s.reg y)) := rfl
theorem exec_xor : exec (.xor x y) s = .next (s.setReg x (s.reg x ^^^ s.reg y)) := rfl
theorem exec_addReg : exec (.addReg x y) s =
    .next (s.setRegThenFlag x (add8 (s.reg x) (s.reg y)) (carry (s.reg x) (s.reg y))) := rfl
theorem exec_sub : exec (.sub x y) s =
    .next (s.setRegThenFlag x (sub8 (s.reg x) (s.reg y)) (noBorrow (s.reg x) (s.reg y))) := rfl
theorem exec_subn : exec (.subn x y) s =
    .next (s.setRegThenFlag x (sub8 (s.reg y) (s.reg x)) (noBorrow (s.reg y) (s.reg x))) := rfl
theorem exec_shr (v : Byte) (h : v = shiftSource s.cfg.legacyShiftQuirk (s.reg x) (s.reg y)) :
    exec (.shr x y) s = .next (s.setFlagThenReg x (shiftRight1 v) (shiftedOutRight v)) := by
  subst h; rfl
theorem exec_shl (v : Byte) (h : v = shiftSource s.cfg.legacyShiftQuirk (s.reg x) (s.reg y)) :
    exec (.shl x y) s = .next (s.setFlagThenReg x (shiftLeft1 v) (shiftedOutLeft v)) := by
  subst h; rfl
theorem exec_sneReg : exec (.sneReg x y) s = .next (s.skipIf (s.reg x != s.reg y)) := rfl
theorem exec_ldI : exec (.ldI nnn) s = .next (s.setI nnn) := rfl
theorem exec_jpR0 : exec (.jpR0 nnn) s = .next (s.jump (jumpPlus nnn (s.reg R0))) := rfl
theorem exec_rnd : exec (.rnd x kk) s = .next (s.setReg x (s.rnd &&& kk)) := rfl
theorem exec_drw : exec (.drw x y n) s =
    .next (s.endBlit (s.pix.blit (s.reg x).toNat (s.reg y).toNat (s.bytesFrom s.I n))) := rfl
theorem exec_skp : exec (.skp x) s = .next (s.skipIf (keyDown s.keys (s.reg x))) := rfl
theorem exec_sknp : exec (.sknp x) s = .next (s.skipIf (!keyDown s.keys (s.reg x))) := rfl
theorem exec_ldRDt : exec (.ldRDt x) s = .next (s.setReg x s.DT) := rfl
theorem exec_ldRK_wait (h : s.keys = 0) : exec (.ldRK x) s = .next s.rewind := by
  simp [exec, execLdRK, (lowestKey_none s.keys).mpr h]
theorem exec_ldRK_key (k : Nat) (h : lowestKey s.keys = some k) :
    exec (.ldRK x) s = .next (s.setReg x (BitVec.ofNat 8 k)) := by simp [exec, execLdRK, h]
theorem exec_ldDt : exec (.ldDt x) s = .next (s.setDT (s.reg x)) := rfl
theorem exec_ldSt : exec (.ldSt x) s = .next (s.setST (s.reg x)) := rfl
theorem exec_addI : exec (.addI x) s = .next (s.setI (dataAddr s.I (s.reg x).toNat)) := rfl
theorem exec_ldF : exec (.ldF x) s = .next (s.setI (A12 ((s.reg x).toNat * 5))) := rfl
theorem exec_ldB : exec (.ldB x) s = .next (s.storeAtI (bcd (s.reg x))) := rfl
theorem exec_stRegs : exec (.stRegs x) s =
    .next ((s.storeAtI (s.regsUpTo x)).setI (dataAddr s.I (x.val + 1))) := rfl
theorem exec_ldRegs : exec (.ldRegs x) s =
    .next ((s.loadRegs x).setI (dataAddr s.I (x.val + 1))) := rfl

end Meanings

/-- A key-wait either rewinds or takes a key. -/
theorem exec_ldRK_cases (x : Reg) (s : State) :
    (s.keys = 0 ∧ exec (.ldRK x) s = .next s.rewind) ∨
    ∃ k, lowestKey s.keys = some k ∧ exec (.ldRK x) s = .next (s.setReg x (BitVec.ofNat 8 k)) := by
  rcases h : lowestKey s.keys with - | k
  · exact .inl ⟨(lowestKey_none _).mp h, exec_ldRK_wait s x ((lowestKey_none _).mp h)⟩
  · exact .inr ⟨k, rfl, exec_ldRK_key s x k h⟩

/-- The phases of a cycle that gets as far as its execute phase. -/
theorem cycle_decoded (dt : Nat) (rnd : Byte) (s : State) (i : Instr) (hf : s.fault = none)
    (hpc : s.pc.toNat ≤ 0xFFE) (hd : decode (s.mem.wordAt s.pc) = .ok i) :
    cycle dt rnd s = finish dt (exec i (s.enter rnd)) := by
  simp only [cycle, hf, fetch_eq, hpc, if_true, hd]

/-- Everything a cycle that gives a next state has done: a fetch in range, a decoded instruction, its
execute phase and the timer update. -/
theorem cycle_next {dt : Nat} {rnd : Byte} {s t : State} (h : cycle dt rnd s = .next t) :
    ∃ i u, s.fault = none ∧ s.pc.toNat ≤ 0xFFE ∧ decode (s.mem.wordAt s.pc) = .ok i ∧
      exec i (s.enter rnd) = .next u ∧ t = u.timerUpdate dt := by
  unfold cycle at h
  split at h
  · cases h
  · rename_i hf
    rw [fetch_eq] at h
    by_cases hpc : s.pc.toNat ≤ 0xFFE
    · simp only [hpc, if_true] at h
      split at h
      · cases h
      · rename_i i hd
        rcases hx : exec i (s.enter rnd) with u | f | r
        · rw [hx] at h
          exact ⟨i, u, hf, hpc, hd, hx, (Host.Outcome.next.inj h).symm⟩
        · rw [hx] at h; cases h
        · rw [hx] at h; cases h
    · simp only [hpc, if_false] at h
      cases h

end Sys2Proof.Machine
end

