-- ==== Sys2Proof/Laws/Frame.lean ====
section
/-! SUPPORT. The frame of each shared operation in the terms of `UnchangedOutside`, which a proof about
an instruction's frame cites. -/

namespace Sys2Proof.Machine

theorem StatePart.same_refl (p : StatePart) (s : State) : p.same s s := by cases p <;> rfl

theorem UnchangedOutside.mono {W V : StatePart → Prop} {s t : State} (h : UnchangedOutside W s t)
    (hw : ∀ p, W p → V p) : UnchangedOutside V s t := fun p hp => h p fun hh => hp (hw p hh)

theorem UnchangedOutside.trans {W : StatePart → Prop} {s t u : State} (h : UnchangedOutside W s t)
    (k : UnchangedOutside W t u) : UnchangedOutside W s u := fun p hp => by
  have h1 := h p hp
  have h2 := k p hp
  cases p <;> exact h2.trans h1

theorem State.setReg_frame (s : State) (r : Reg) (v : Byte) :
    UnchangedOutside (· = .reg r) s (s.setReg r v) := by
  intro p hp
  cases p
  case reg q =>
    show (s.setReg r v).reg q = _
    rw [State.reg_setReg, if_neg fun h => hp (by rw [h])]
  all_goals rfl

theorem State.setRegThenFlag_frame (s : State) (r : Reg) (v f : Byte) :
    UnchangedOutside (fun p => p = .reg r ∨ p = .reg RF) s (s.setRegThenFlag r v f) :=
  ((s.setReg_frame r v).mono fun _ => .inl).trans
    (((s.setReg r v).setReg_frame RF f).mono fun _ => .inr)

theorem State.setFlagThenReg_frame (s : State) (r : Reg) (v f : Byte) :
    UnchangedOutside (fun p => p = .reg r ∨ p = .reg RF) s (s.setFlagThenReg r v f) :=
  ((s.setReg_frame RF f).mono fun _ => .inr).trans
    (((s.setReg RF f).setReg_frame r v).mono fun _ => .inl)

theorem State.jump_frame (s : State) (v : Word) : UnchangedOutside (· = .pc) s (s.jump v) := by
  intro p hp
  cases p <;> first | rfl | exact absurd rfl hp

theorem State.skipIf_frame (s : State) (c : Bool) :
    UnchangedOutside (fun p => c = true ∧ p = .pc) s (s.skipIf c) := by
  cases c
  · exact fun p _ => p.same_refl s
  · exact (s.jump_frame (s.pc + 2)).mono fun _ h => ⟨rfl, h⟩

theorem State.storeAtI_frame (s : State) (vs : List Byte) (hm : s.mem.wf) :
    UnchangedOutside (fun p => ∃ k < vs.length, p = .byte (dataAddr s.I k)) s (s.storeAtI vs) := by
  intro p hp
  cases p
  case byte a =>
    exact Memory.read_writeBlock_other hm _ a 0 vs fun k hk h => hp ⟨k, hk, by rw [← h, Nat.zero_add]⟩
  all_goals rfl

end Sys2Proof.Machine
end

