-- ==== Sys2Proof/Laws/PerInstr.lean ====
section
/-! SUPPORT. The per-instruction family `EncodesRow`: the word of a well-formed instruction matches a
row of the opcode map that bears the instruction's own mnemonic (spec 30_encoding.md R61). -/

namespace Sys2Proof.Laws.EncodesRow

/-- The word of a well-formed instruction fits the row of its mnemonic. -/
def Statement (i : Instr) : Prop :=
  i.wf = true → ∃ row ∈ opcodeRows, row.mnemonic = i.mnemonic ∧ row.fits (encode i) = true

/-! ## One lemma per format -/

theorem fits_encNNN (m : String) (p : Word) (op : Nat) (nnn : Addr) (h : op < 16)
    (hp : op * 4096 = p.toNat) : OpcodeRow.fits ⟨m, p, 0xF000⟩ (encNNN op nnn) = true :=
  (fits_F000 m p _).mpr (by rw [(fields_encNNN op nnn h).1, hp])

theorem fits_encXKK (m : String) (p : Word) (op : Nat) (x : Reg) (kk : Byte) (h : op < 16)
    (hp : op * 4096 = p.toNat) : OpcodeRow.fits ⟨m, p, 0xF000⟩ (encXKK op x kk.toNat) = true :=
  (fits_F000 m p _).mpr (by rw [(fields_encXKK op x kk.toNat h kk.isLt).1, hp])

theorem fits_encXS (m : String) (p : Word) (op : Nat) (x : Reg) (kk : Nat) (h : op < 16)
    (hk : kk < 256) (hp : op * 4096 + kk = p.toNat) :
    OpcodeRow.fits ⟨m, p, 0xF0FF⟩ (encXKK op x kk) = true :=
  (fits_F0FF m p _).mpr
    (by rw [(fields_encXKK op x kk h hk).1, (fields_encXKK op x kk h hk).2.2.1, hp])

theorem fits_encXYS (m : String) (p : Word) (op : Nat) (x y : Reg) (n : Nat) (h : op < 16)
    (hn : n < 16) (hp : op * 4096 + n = p.toNat) :
    OpcodeRow.fits ⟨m, p, 0xF00F⟩ (encXYN op x y n) = true :=
  (fits_F00F m p _).mpr
    (by rw [(fields_encXYN op x y n h hn).1, (fields_encXYN op x y n h hn).2.2.2, hp])

theorem fits_encXYN (m : String) (p : Word) (op : Nat) (x y : Reg) (n : Nat) (h : op < 16)
    (hn : n < 16) (hp : op * 4096 = p.toNat) :
    OpcodeRow.fits ⟨m, p, 0xF000⟩ (encXYN op x y n) = true :=
  (fits_F000 m p _).mpr (by rw [(fields_encXYN op x y n h hn).1, hp])

/-! ## One lemma per constructor -/

theorem cls : Statement .cls := fun _ =>
  ⟨⟨"CLS", 0x00E0, 0xFFFF⟩, by decide, rfl, by decide⟩

theorem ret : Statement .ret := fun _ =>
  ⟨⟨"RET", 0x00EE, 0xFFFF⟩, by decide, rfl, by decide⟩

theorem jp (nnn : Addr) : Statement (.jp nnn) := fun _ =>
  ⟨⟨"JP", 0x1000, 0xF000⟩, by decide, rfl, fits_encNNN _ _ _ nnn (by decide) rfl⟩

theorem call (nnn : Addr) : Statement (.call nnn) := fun _ =>
  ⟨⟨"CALL", 0x2000, 0xF000⟩, by decide, rfl, fits_encNNN _ _ _ nnn (by decide) rfl⟩

theorem seImm (x : Reg) (kk : Byte) : Statement (.seImm x kk) := fun _ =>
  ⟨⟨"SE_imm", 0x3000, 0xF000⟩, by decide, rfl, fits_encXKK _ _ _ x kk (by decide) rfl⟩

theorem sneImm (x : Reg) (kk : Byte) : Statement (.sneImm x kk) := fun _ =>
  ⟨⟨"SNE_imm", 0x4000, 0xF000⟩, by decide, rfl, fits_encXKK _ _ _ x kk (by decide) rfl⟩

theorem seReg (x y : Reg) : Statement (.seReg x y) := fun _ =>
  ⟨⟨"SE_reg", 0x5000, 0xF00F⟩, by decide, rfl,
    fits_encXYS _ _ _ x y _ (by decide) (by decide) rfl⟩

theorem ldImm (x : Reg) (kk : Byte) : Statement (.ldImm x kk) := fun _ =>
  ⟨⟨"LD_imm", 0x6000, 0xF000⟩, by decide, rfl, fits_encXKK _ _ _ x kk (by decide) rfl⟩

theorem addImm (x : Reg) (kk : Byte) : Statement (.addImm x kk) := fun _ =>
  ⟨⟨"ADD_imm", 0x7000, 0xF000⟩, by decide, rfl, fits_encXKK _ _ _ x kk (by decide) rfl⟩

theorem ldReg (x y : Reg) : Statement (.ldReg x y) := fun _ =>
  ⟨⟨"LD_reg", 0x8000, 0xF00F⟩, by decide, rfl,
    fits_encXYS _ _ _ x y _ (by decide) (by decide) rfl⟩

theorem or (x y : Reg) : Statement (.or x y) := fun _ =>
  ⟨⟨"OR", 0x8001, 0xF00F⟩, by decide, rfl,
    fits_encXYS _ _ _ x y _ (by decide) (by decide) rfl⟩

theorem and (x y : Reg) : Statement (.and x y) := fun _ =>
  ⟨⟨"AND", 0x8002, 0xF00F⟩, by decide, rfl,
    fits_encXYS _ _ _ x y _ (by decide) (by decide) rfl⟩

theorem xor (x y : Reg) : Statement (.xor x y) := fun _ =>
  ⟨⟨"XOR", 0x8003, 0xF00F⟩, by decide, rfl,
    fits_encXYS _ _ _ x y _ (by decide) (by decide) rfl⟩

theorem addReg (x y : Reg) : Statement (.addReg x y) := fun _ =>
  ⟨⟨"ADD_reg", 0x8004, 0xF00F⟩, by decide, rfl,
    fits_encXYS _ _ _ x y _ (by decide) (by decide) rfl⟩

theorem sub (x y : Reg) : Statement (.sub x y) := fun _ =>
  ⟨⟨"SUB", 0x8005, 0xF00F⟩, by decide, rfl,
    fits_encXYS _ _ _ x y _ (by decide) (by decide) rfl⟩

theorem shr (x y : Reg) : Statement (.shr x y) := fun _ =>
  ⟨⟨"SHR", 0x8006, 0xF00F⟩, by decide, rfl,
    fits_encXYS _ _ _ x y _ (by decide) (by decide) rfl⟩

theorem subn (x y : Reg) : Statement (.subn x y) := fun _ =>
  ⟨⟨"SUBN", 0x8007, 0xF00F⟩, by decide, rfl,
    fits_encXYS _ _ _ x y _ (by decide) (by decide) rfl⟩

theorem shl (x y : Reg) : Statement (.shl x y) := fun _ =>
  ⟨⟨"SHL", 0x800E, 0xF00F⟩, by decide, rfl,
    fits_encXYS _ _ _ x y _ (by decide) (by decide) rfl⟩

theorem sneReg (x y : Reg) : Statement (.sneReg x y) := fun _ =>
  ⟨⟨"SNE_reg", 0x9000, 0xF00F⟩, by decide, rfl,
    fits_encXYS _ _ _ x y _ (by decide) (by decide) rfl⟩

theorem ldI (nnn : Addr) : Statement (.ldI nnn) := fun _ =>
  ⟨⟨"LD_I", 0xA000, 0xF000⟩, by decide, rfl, fits_encNNN _ _ _ nnn (by decide) rfl⟩

theorem jpR0 (nnn : Addr) : Statement (.jpR0 nnn) := fun _ =>
  ⟨⟨"JP_R0", 0xB000, 0xF000⟩, by decide, rfl, fits_encNNN _ _ _ nnn (by decide) rfl⟩

theorem rnd (x : Reg) (kk : Byte) : Statement (.rnd x kk) := fun _ =>
  ⟨⟨"RND", 0xC000, 0xF000⟩, by decide, rfl, fits_encXKK _ _ _ x kk (by decide) rfl⟩

theorem drw (x y : Reg) (n : Nat) : Statement (.drw x y n) := fun h =>
  ⟨⟨"DRW", 0xD000, 0xF000⟩, by decide, rfl,
    fits_encXYN _ _ _ x y n (by decide) (Nat.lt_succ_of_le (of_decide_eq_true h)) rfl⟩

theorem skp (x : Reg) : Statement (.skp x) := fun _ =>
  ⟨⟨"SKP", 0xE09E, 0xF0FF⟩, by decide, rfl,
    fits_encXS _ _ _ x _ (by decide) (by decide) rfl⟩

theorem sknp (x : Reg) : Statement (.sknp x) := fun _ =>
  ⟨⟨"SKNP", 0xE0A1, 0xF0FF⟩, by decide, rfl,
    fits_encXS _ _ _ x _ (by decide) (by decide) rfl⟩

theorem ldRDt (x : Reg) : Statement (.ldRDt x) := fun _ =>
  ⟨⟨"LD_R_DT", 0xF007, 0xF0FF⟩, by decide, rfl,
    fits_encXS _ _ _ x _ (by decide) (by decide) rfl⟩

theorem ldRK (x : Reg) : Statement (.ldRK x) := fun _ =>
  ⟨⟨"LD_R_K", 0xF00A, 0xF0FF⟩, by decide, rfl,
    fits_encXS _ _ _ x _ (by decide) (by decide) rfl⟩

theorem ldDt (x : Reg) : Statement (.ldDt x) := fun _ =>
  ⟨⟨"LD_DT", 0xF015, 0xF0FF⟩, by decide, rfl,
    fits_encXS _ _ _ x _ (by decide) (by decide) rfl⟩

theorem ldSt (x : Reg) : Statement (.ldSt x) := fun _ =>
  ⟨⟨"LD_ST", 0xF018, 0xF0FF⟩, by decide, rfl,
    fits_encXS _ _ _ x _ (by decide) (by decide) rfl⟩

theorem addI (x : Reg) : Statement (.addI x) := fun _ =>
  ⟨⟨"ADD_I", 0xF01E, 0xF0FF⟩, by decide, rfl,
    fits_encXS _ _ _ x _ (by decide) (by decide) rfl⟩

theorem ldF (x : Reg) : Statement (.ldF x) := fun _ =>
  ⟨⟨"LD_F", 0xF029, 0xF0FF⟩, by decide, rfl,
    fits_encXS _ _ _ x _ (by decide) (by decide) rfl⟩

theorem ldB (x : Reg) : Statement (.ldB x) := fun _ =>
  ⟨⟨"LD_B", 0xF033, 0xF0FF⟩, by decide, rfl,
    fits_encXS _ _ _ x _ (by decide) (by decide) rfl⟩

theorem stRegs (x : Reg) : Statement (.stRegs x) := fun _ =>
  ⟨⟨"ST_REGS", 0xF055, 0xF0FF⟩, by decide, rfl,
    fits_encXS _ _ _ x _ (by decide) (by decide) rfl⟩

theorem ldRegs (x : Reg) : Statement (.ldRegs x) := fun _ =>
  ⟨⟨"LD_REGS", 0xF065, 0xF0FF⟩, by decide, rfl,
    fits_encXS _ _ _ x _ (by decide) (by decide) rfl⟩

end Sys2Proof.Laws.EncodesRow
end

