-- ==== Sys2Proof/Machine/Assembly.lean ====
section
/-! DEFINITION. The assembler syntax of an instruction (spec 30_encoding.md R66): names only, the word
carries the meaning (D25, notes/assumptions/35.md). Nothing else of the model reads it. -/

namespace Sys2Proof.Machine

/-- One hexadecimal digit. -/
def hexDigit (d : Nat) : String :=
  ["0", "1", "2", "3", "4", "5", "6", "7", "8", "9", "A", "B", "C", "D", "E", "F"].getD (d % 16) "0"

/-- `R0`..`RF`. -/
def asmReg (r : Reg) : String := "R" ++ hexDigit r.val

/-- An 8-bit immediate, with `0x`. -/
def asmByte (kk : Byte) : String := "0x" ++ hexDigit (kk.toNat / 16) ++ hexDigit kk.toNat

/-- A 12-bit address, with `0x`. -/
def asmAddr (nnn : Addr) : String :=
  "0x" ++ hexDigit (nnn.toNat / 256) ++ hexDigit (nnn.toNat / 16) ++ hexDigit nnn.toNat

/-- A mnemonic and two operands. -/
def asm2 (m a b : String) : String := m ++ " " ++ a ++ ", " ++ b

/-- The text of an instruction. `SHR` and `SHL` show the `Ry` that their y field encodes. -/
def asm : Instr → String
  | .cls => "CLS"
  | .ret => "RET"
  | .jp nnn => "JP " ++ asmAddr nnn
  | .call nnn => "CALL " ++ asmAddr nnn
  | .seImm x kk => asm2 "SE" (asmReg x) (asmByte kk)
  | .sneImm x kk => asm2 "SNE" (asmReg x) (asmByte kk)
  | .seReg x y => asm2 "SE" (asmReg x) (asmReg y)
  | .ldImm x kk => asm2 "LD" (asmReg x) (asmByte kk)
  | .addImm x kk => asm2 "ADD" (asmReg x) (asmByte kk)
  | .ldReg x y => asm2 "LD" (asmReg x) (asmReg y)
  | .or x y => asm2 "OR" (asmReg x) (asmReg y)
  | .and x y => asm2 "AND" (asmReg x) (asmReg y)
  | .xor x y => asm2 "XOR" (asmReg x) (asmReg y)
  | .addReg x y => asm2 "ADD" (asmReg x) (asmReg y)
  | .sub x y => asm2 "SUB" (asmReg x) (asmReg y)
  | .shr x y => asm2 "SHR" (asmReg x) (asmReg y)
  | .subn x y => asm2 "SUBN" (asmReg x) (asmReg y)
  | .shl x y => asm2 "SHL" (asmReg x) (asmReg y)
  | .sneReg x y => asm2 "SNE" (asmReg x) (asmReg y)
  | .ldI nnn => asm2 "LD" "I" (asmAddr nnn)
  | .jpR0 nnn => asm2 "JP" "R0" (asmAddr nnn)
  | .rnd x kk => asm2 "RND" (asmReg x) (asmByte kk)
  | .drw x y n => asm2 "DRW" (asmReg x) (asmReg y) ++ ", " ++ hexDigit n
  | .skp x => "SKP " ++ asmReg x
  | .sknp x => "SKNP " ++ asmReg x
  | .ldRDt x => asm2 "LD" (asmReg x) "DT"
  | .ldRK x => asm2 "LD" (asmReg x) "K"
  | .ldDt x => asm2 "LD" "DT" (asmReg x)
  | .ldSt x => asm2 "LD" "ST" (asmReg x)
  | .addI x => asm2 "ADD" "I" (asmReg x)
  | .ldF x => asm2 "LD" "F" (asmReg x)
  | .ldB x => asm2 "LD" "B" (asmReg x)
  | .stRegs x => asm2 "LD" "[I]" (asmReg x)
  | .ldRegs x => asm2 "LD" (asmReg x) "[I]"

end Sys2Proof.Machine
end

