-- ==== Sys2Proof/Tests/Slice0.lean ====
section
/-! SUPPORT. The model's own tests, and a witness for every statement that has hypotheses. Every
expected value is taken from spec 95_test_vectors.md (the vector is named) or worked out by hand from
the rule named; none is the model's own answer. -/

open Sys2Proof Sys2Proof.Machine

namespace Sys2Proof.Tests

/-! ## Well-formedness: its one check -/

/-- R59: a row count is 0..15. -/
theorem test_wf_refuses_sixteen_rows : rowCountOk 16 = false ∧ (Instr.drw 0 0 16).wf = false := by
  decide
theorem test_wf_admits_fifteen_rows : rowCountOk 15 = true ∧ (Instr.drw 0 0 15).wf = true := by
  decide

/-! ## Decoding: one word per constructor, written out bit by bit from the encodings of R58 and R61
with x = 0xA, y = 0xB, kk = 0x42, nnn = 0xABC, n = 0x5 -/

theorem test_decode_families_0_to_2 :
    decode 0b0000000011100000 = .ok .cls ∧ decode 0b0000000011101110 = .ok .ret ∧
    decode 0b0001101010111100 = .ok (.jp 0xABC) ∧ decode 0b0010101010111100 = .ok (.call 0xABC) := by
  and_intros <;> rfl
theorem test_decode_families_3_to_7 :
    decode 0b0011101001000010 = .ok (.seImm 10 0x42) ∧
    decode 0b0100101001000010 = .ok (.sneImm 10 0x42) ∧
    decode 0b0101101010110000 = .ok (.seReg 10 11) ∧
    decode 0b0110101001000010 = .ok (.ldImm 10 0x42) ∧
    decode 0b0111101001000010 = .ok (.addImm 10 0x42) := by
  and_intros <;> rfl
theorem test_decode_family_8 :
    decode 0b1000101010110000 = .ok (.ldReg 10 11) ∧ decode 0b1000101010110001 = .ok (.or 10 11) ∧
    decode 0b1000101010110010 = .ok (.and 10 11) ∧ decode 0b1000101010110011 = .ok (.xor 10 11) ∧
    decode 0b1000101010110100 = .ok (.addReg 10 11) ∧ decode 0b1000101010110101 = .ok (.sub 10 11) ∧
    decode 0b1000101010110110 = .ok (.shr 10 11) ∧ decode 0b1000101010110111 = .ok (.subn 10 11) ∧
    decode 0b1000101010111110 = .ok (.shl 10 11) := by
  and_intros <;> rfl
theorem test_decode_families_9_to_D :
    decode 0b1001101010110000 = .ok (.sneReg 10 11) ∧ decode 0b1010101010111100 = .ok (.ldI 0xABC) ∧
    decode 0b1011101010111100 = .ok (.jpR0 0xABC) ∧ decode 0b1100101001000010 = .ok (.rnd 10 0x42) ∧
    decode 0b1101101010110101 = .ok (.drw 10 11 5) := by
  and_intros <;> rfl
theorem test_decode_family_E :
    decode 0b1110101010011110 = .ok (.skp 10) ∧ decode 0b1110101010100001 = .ok (.sknp 10) := by
  and_intros <;> rfl
theorem test_decode_family_F :
    decode 0b1111101000000111 = .ok (.ldRDt 10) ∧ decode 0b1111101000001010 = .ok (.ldRK 10) ∧
    decode 0b1111101000010101 = .ok (.ldDt 10) ∧ decode 0b1111101000011000 = .ok (.ldSt 10) ∧
    decode 0b1111101000011110 = .ok (.addI 10) ∧ decode 0b1111101000101001 = .ok (.ldF 10) ∧
    decode 0b1111101000110011 = .ok (.ldB 10) ∧ decode 0b1111101001010101 = .ok (.stRegs 10) ∧
    decode 0b1111101001100101 = .ok (.ldRegs 10) := by
  and_intros <;> rfl
/-- V7 to V12. -/
theorem test_decode_invalid :
    ([0x0000, 0x00E1, 0x01E0, 0x0FEE, 0x0123, 0x5121, 0x512F, 0x8008, 0x800D, 0x800F, 0x9001, 0xE09F,
      0xE0A0, 0xE000, 0xF000, 0xF01F, 0xF030, 0xF066, 0xF0FF] : List Word).all
      (fun w => match decode w with
        | .ok _ => false
        | .error e => e == .invalidOpcode w) = true := by decide
/-- V13. -/
theorem test_decode_unused_fields_are_valid :
    decode 0xD000 = .ok (.drw 0 0 0) ∧ decode 0xBFFF = .ok (.jpR0 0xFFF) ∧
    decode 0xCF00 = .ok (.rnd 15 0x00) := by and_intros <;> rfl
/-- R45, R56: an instruction is two bytes, the first bits 15:8. -/
theorem test_decodeBytes :
    decodeBytes [0x8A, 0xB4, 0x12] = .ok (.addReg 10 11, [0x12]) ∧
    decodeBytes [0x8A] = .error .truncated := by and_intros <;> rfl
theorem test_decodeTableWord :
    decodeTableWord 16 0x00EE = some .ret ∧ decodeTableWord 16 0x8AB4 = some (.addReg 10 11) ∧
    decodeTableWord 16 0x0123 = none := by and_intros <;> rfl
/-- R61, R68: 34 rows. -/
theorem test_opcodeRows_length : opcodeRows.length = 34 := by decide

/-- R66 (the source's own `ADD R0,0x02` for 7002), and P3's and P4's listings. -/
theorem test_asm : asm (.addImm 0 0x02) = "ADD R0, 0x02" ∧ asm (.drw 1 2 5) = "DRW R1, R2, 5" ∧
    asm (.stRegs 1) = "LD [I], R1" := by decide

/-! ## Helpers: a machine with known parameters, one instruction, and what it leaves -/

/-- The reset state with `TICK_UNITS = units` and the quirk as given. -/
def fresh (units : Nat) (quirk : Bool) : State :=
  { State.reset with cfg := { legacyShiftQuirk := quirk, tickUnits := units } }

/-- The reset state with the parameters fixed and some registers set. -/
def withRegs (rs : List (Reg × Byte)) : State :=
  rs.foldl (fun s r => s.setReg r.1 r.2) (fresh 1 false)

/-- The next state of an outcome, seen through `f`. -/
def seen {α : Type} (f : State → α) : Result → Option α
  | .next t => some (f t)
  | .fault _ => none
  | .refused _ => none

/-- One whole step, with `dt` and `rnd`, of the word `w` placed at `pc`. -/
def stepOf (s : State) (pc w : Word) (dt : Nat) (rnd : Byte) : Result :=
  cycle dt rnd (({ s with pc := pc } : State).placeAtPc w)

/-- `pc` after a step of `w` at `pc`, with no time passing. -/
def pcAfter (s : State) (pc w : Word) : Option Word := seen (·.pc) (stepOf s pc w 0 0)

/-- A register and `RF` after an execute phase. -/
def regs (r : Reg) : Result → Option (Byte × Byte) := seen fun t => (t.reg r, t.reg RF)

/-! ## Control transfer -/

/-- V20, V2. -/
theorem test_jp : pcAfter (fresh 1 false) 0x200 0x1ABC = some 0xABC ∧
    pcAfter (fresh 1 false) 0xFFE 0x1200 = some 0x200 := by decide
/-- V24: the 16th call succeeds. -/
theorem test_call : seen (fun t => (t.pc, t.sp, t.stack.get 15))
    (stepOf { fresh 1 false with sp := 15 } 0x300 0x2400 0 0) = some (0x400, 16, 0x302) := by decide
/-- V25, V142. -/
theorem test_call_full : stepOf { fresh 1 false with sp := 16 } 0x400 0x2500 0 0 =
    .fault (.stackOverflow 0x400) := by rfl
/-- V27. -/
theorem test_ret : seen (fun t => (t.pc, t.sp)) (stepOf
    { fresh 1 false with sp := 2, stack := (fresh 1 false).stack.set 1 0x0ABC } 0x200 0x00EE 0 0) =
    some (0x0ABC, 1) := by decide
/-- V26, V143. -/
theorem test_ret_empty : stepOf (fresh 1 false) 0x250 0x00EE 0 0 = .fault (.stackUnderflow 0x250) := by
  rfl
/-- V29, V30, V34. -/
theorem test_seImm : pcAfter (withRegs []) 0x208 0x3100 = some 0x20C ∧
    pcAfter (withRegs [(1, 0x01)]) 0x208 0x3100 = some 0x20A ∧
    pcAfter (withRegs [(15, 0x01)]) 0x200 0x3F01 = some 0x204 := by decide
/-- V31. -/
theorem test_sneImm : pcAfter (withRegs [(2, 0x05)]) 0x300 0x4205 = some 0x302 ∧
    pcAfter (withRegs [(2, 0x05)]) 0x300 0x4206 = some 0x304 := by decide
/-- V32, V33, and R74 on unequal registers. -/
theorem test_seReg : pcAfter (withRegs [(3, 0x10), (4, 0x10)]) 0x200 0x5340 = some 0x204 ∧
    pcAfter (withRegs [(3, 0x10), (4, 0x11)]) 0x200 0x5340 = some 0x202 := by decide
/-- V32, and R75 on unequal registers. -/
theorem test_sneReg : pcAfter (withRegs [(3, 0x10), (4, 0x10)]) 0x200 0x9340 = some 0x202 ∧
    pcAfter (withRegs [(3, 0x10), (4, 0x11)]) 0x200 0x9340 = some 0x204 := by decide
/-- V36, V37. -/
theorem test_jpR0 : pcAfter (withRegs [(0, 0xFF)]) 0x200 0xBFFF = some 0x10FE ∧
    pcAfter (withRegs [(5, 0x10)]) 0x200 0xB500 = some 0x500 := by decide

/-! ## Loads, arithmetic, logic -/

/-- V40, V41. -/
theorem test_ldImm : regs 10 (exec (.ldImm 10 0x42) (withRegs [])) = some (0x42, 0x00) ∧
    regs 15 (exec (.ldImm 15 0x00) (withRegs [(15, 1)])) = some (0x00, 0x00) := by decide
/-- W1, V42, V43. -/
theorem test_addImm : regs 0 (exec (.addImm 0 0x02) (withRegs [(0, 0xFF)])) = some (0x01, 0x00) ∧
    regs 15 (exec (.addImm 15 0x01) (withRegs [(15, 0xFF)])) = some (0x00, 0x00) := by decide
/-- V44. -/
theorem test_ldReg : regs 0 (exec (.ldReg 0 1) (withRegs [(1, 0x2A)])) = some (0x2A, 0x00) := by decide
/-- V45. -/
theorem test_logic : let s := withRegs [(0, 0x0F), (1, 0xF0), (15, 1)]
    regs 0 (exec (.or 0 1) s) = some (0xFF, 1) ∧ regs 0 (exec (.and 0 1) s) = some (0x00, 1) ∧
    regs 0 (exec (.xor 0 1) s) = some (0xFF, 1) := by decide
/-- V46. -/
theorem test_xor_self : regs 0 (exec (.xor 0 0) (withRegs [(0, 0x5A)])) = some (0x00, 0x00) := by decide
/-- V48, W2. -/
theorem test_addReg : regs 0 (exec (.addReg 0 1) (withRegs [(0, 0x80), (1, 0x80)])) = some (0x00, 1) ∧
    regs 0 (exec (.addReg 0 1) (withRegs [(0, 5), (1, 5)])) = some (10, 0) := by decide
/-- V50, V51. -/
theorem test_addReg_into_RF : regs 15 (exec (.addReg 15 1) (withRegs [(15, 0x10), (1, 0x20)])) =
      some (0x00, 0x00) ∧
    regs 15 (exec (.addReg 15 1) (withRegs [(15, 0xFF), (1, 0x01)])) = some (0x01, 0x01) := by decide
/-- W4a, V54. -/
theorem test_sub : regs 0 (exec (.sub 0 1) (withRegs [(0, 3), (1, 5)])) = some (0xFE, 0) ∧
    regs 0 (exec (.sub 0 1) (withRegs [(0, 7), (1, 7)])) = some (0x00, 1) := by decide
/-- V52: `RF` is also the source. -/
theorem test_sub_from_RF : regs 0 (exec (.sub 0 15) (withRegs [(0, 0x10), (15, 1)])) =
    some (0x0F, 1) := by decide
/-- V58, V59. -/
theorem test_shr : regs 0 (exec (.shr 0 1) (withRegs [(0, 5), (1, 0xF0)])) = some (0x02, 1) ∧
    regs 0 (exec (.shr 0 1) ((fresh 1 true).setReg 1 3)) = some (0x01, 1) := by decide
/-- V60: the result is written last. -/
theorem test_shr_RF : regs 15 (exec (.shr 15 0) (withRegs [(15, 5)])) = some (0x02, 0x02) := by decide
/-- V55, V56, V57. -/
theorem test_subn : regs 0 (exec (.subn 0 1) (withRegs [(0, 3), (1, 5)])) = some (0x02, 1) ∧
    regs 0 (exec (.subn 0 1) (withRegs [(0, 5), (1, 3)])) = some (0xFE, 0) ∧
    regs 15 (exec (.subn 15 1) (withRegs [(15, 2), (1, 1)])) = some (0x00, 0x00) := by decide
/-- V62, V63. -/
theorem test_shl : regs 2 (exec (.shl 2 0) (withRegs [(2, 0x81)])) = some (0x02, 1) ∧
    regs 0 (exec (.shl 0 1) ((fresh 1 true).setReg 1 0x81)) = some (0x02, 1) := by decide
/-- V64, V65. -/
theorem test_shl_RF : regs 15 (exec (.shl 15 15) (withRegs [(15, 0x81)])) = some (0x02, 0x02) ∧
    regs 0 (exec (.shl 0 0) (withRegs [(0, 0x7F), (15, 1)])) = some (0xFE, 0x00) := by decide
/-- V66. -/
theorem test_rnd : seen (·.reg 3) (stepOf (fresh 1 false) 0x200 0xC30F 0 0xA7) = some 0x07 := by decide

/-! ## Index register and memory -/

/-- V70. -/
theorem test_ldI : seen (·.I) (exec (.ldI 0xFFF) (fresh 1 false)) = some 0xFFF := by decide
/-- V72. -/
theorem test_addI : seen (fun t => (t.I, t.reg 15))
    (exec (.addI 0) ((withRegs [(0, 1)]).setI 0xFFF)) = some (0x000, 0x00) := by decide
/-- V74, V75. -/
theorem test_ldF : seen (·.I) (exec (.ldF 0) (withRegs [(0, 0x0F)])) = some 0x04B ∧
    seen (·.I) (exec (.ldF 0) (withRegs [(0, 0xFF)])) = some 0x4FB := by decide
/-- W8. -/
theorem test_ldB : seen (fun t => (t.byte 0x300, t.byte 0x301, t.byte 0x302, t.I))
    (exec (.ldB 1) ((withRegs [(1, 157)]).setI 0x300)) = some (1, 5, 7, 0x300) := by decide
/-- V78: the digits wrap into the font. -/
theorem test_ldB_wraps : seen (fun t => (t.byte 0xFFE, t.byte 0xFFF, t.byte 0x000, t.byte 0x001))
    (exec (.ldB 0) ((withRegs [(0, 42)]).setI 0xFFE)) = some (0, 4, 2, 0x90) := by decide
/-- V80. -/
theorem test_stRegs : seen (fun t => (t.byte 0x300, t.byte 0x301, t.I))
    (exec (.stRegs 0) ((withRegs [(0, 0xAB)]).setI 0x300)) = some (0xAB, 0x00, 0x301) := by decide
/-- V82. -/
theorem test_stRegs_wraps : seen (fun t => (t.byte 0xFFF, t.byte 0x000, t.I))
    (exec (.stRegs 1) ((withRegs [(0, 0x11), (1, 0x22)]).setI 0xFFF)) =
    some (0x11, 0x22, 0x001) := by decide
/-- V84. -/
theorem test_ldRegs : seen (fun t => (t.reg 0, t.reg 1, t.reg 4, t.reg 5, t.I))
    (exec (.ldRegs 4) (fresh 1 false)) = some (0xF0, 0x90, 0xF0, 0x00, 0x005) := by decide
/-- R46, R96: the block wraps past 0xFFF. -/
theorem test_ldRegs_wraps : seen (fun t => (t.reg 0, t.reg 1, t.I))
    (exec (.ldRegs 1) ((fresh 1 false).setI 0xFFF)) = some (0x00, 0xF0, 0x001) := by decide

/-! ## Display -/

/-- The reset state with `I = 0x300`, one sprite byte there, and `R0`, `R1`. -/
def sprite (b cx cy : Byte) : State :=
  { (withRegs [(0, cx), (1, cy)]).setI 0x300 with mem := Memory.write [] 0x300 b }

/-- W5. -/
theorem test_cls : seen (fun t => (t.pix.get 5 5, t.redraw))
    (exec .cls { fresh 1 false with pix := Display.blank.put 5 5 true }) = some (false, true) := by
  decide
/-- V90. -/
theorem test_drw_glyph : seen (fun t => ((List.range 4).map (t.pix.get · 0),
      (List.range 4).map (t.pix.get · 1), t.reg 15, t.redraw))
    (exec (.drw 0 1 5) (fresh 1 false)) =
    some ([true, true, true, true], [true, false, false, true], 0, true) := by decide
/-- V93: clipped at the right edge, not wrapped. -/
theorem test_drw_clips : seen (fun t => ((List.range 64).filter (t.pix.get · 0), t.reg 15))
    (exec (.drw 0 1 1) (sprite 0xFF 0x3C 0)) = some ([60, 61, 62, 63], 0) := by decide

/-! ## Keys and timers -/

/-- V110, V112. -/
theorem test_skp : pcAfter { withRegs [(0, 5)] with keys := 0x0020 } 0x200 0xE09E = some 0x204 ∧
    pcAfter { withRegs [(0, 0x10)] with keys := 0xFFFF } 0x200 0xE09E = some 0x202 := by decide
/-- V111, V112. -/
theorem test_sknp : pcAfter { withRegs [(0, 5)] with keys := 0xFFDF } 0x200 0xE0A1 = some 0x204 ∧
    pcAfter { withRegs [(0, 0x10)] with keys := 0xFFFF } 0x200 0xE0A1 = some 0x204 := by decide
/-- V121: `DT` is read before the tick. -/
theorem test_ldRDt : seen (fun t => (t.reg 3, t.DT))
    (stepOf { fresh 1 false with DT := 5 } 0x200 0xF307 1 0) = some (5, 4) := by decide
/-- V114. -/
theorem test_ldRK_waits : seen (fun t => (t.pc, t.reg 3)) (stepOf (fresh 1 false) 0x200 0xF30A 0 0) =
    some (0x200, 0) := by decide
/-- V117. -/
theorem test_ldRK_takes : seen (fun t => (t.pc, t.reg 2))
    (stepOf { fresh 1 false with keys := 0x0028 } 0x200 0xF20A 0 0) = some (0x202, 3) := by decide
/-- V122. -/
theorem test_ldDt : seen (·.DT) (stepOf (withRegs [(0, 5)]) 0x200 0xF015 1 0) = some 4 := by decide
/-- V124. -/
theorem test_ldSt : seen (·.ST) (stepOf (withRegs [(4, 0x1E)]) 0x200 0xF418 0 0) = some 0x1E := by decide
/-- V125, V127: more than one tick in a step, saturating. -/
theorem test_ticks : seen (fun t => (t.DT, t.ST))
      (stepOf { fresh 1 false with DT := 2, ST := 1 } 0x200 0x1200 3 0) = some (0, 0) ∧
    seen (fun t => (t.tickAcc, t.DT)) (stepOf { fresh 3 false with DT := 0x0A } 0x200 0x1200 7 0) =
      some (1, 8) := by decide

/-! ## The step, faults, reset, load -/

/-- V140. -/
theorem test_invalid_opcode : stepOf (fresh 1 false) 0x300 0xFFFF 0 0 =
    .fault (.invalidOpcode 0xFFFF 0x300) := by rfl
/-- V141, V4. -/
theorem test_pc_out_of_range : cycle 0 0 { fresh 1 false with pc := 0x1000 } =
      .fault (.programCounterOutOfRange 0x1000) ∧
    cycle 0 0 { fresh 1 false with pc := 0xFFF } = .fault (.programCounterOutOfRange 0xFFF) := by
  and_intros <;> rfl
/-- V3: the last word of memory is fetched and `pc` leaves memory. -/
theorem test_last_word : pcAfter (fresh 1 false) 0xFFE 0x6001 = some 0x1000 := by decide
/-- V5: an odd `pc` is legal. -/
theorem test_odd_pc : seen (fun t => (t.reg 10, t.pc)) (stepOf (fresh 1 false) 0x201 0x6A07 0 0) =
    some (0x07, 0x203) := by decide
/-- V128: no timer update on a fault. -/
theorem test_fault_keeps_timers : let r := hostStep 1 0 { fresh 2 false with DT := 5, tickAcc := 1 }
    r.2 = .faulted (.invalidOpcode 0x0000 0x200) ∧ r.1.DT = 5 ∧ r.1.tickAcc = 1 := by decide
/-- V134, through the host's interface. -/
theorem test_step_before_load : Sys2Proof.core.step Sys2Proof.core.reset =
    .fault (.invalidOpcode 0x0000 0x200) := by rfl
/-- V135, V136. -/
theorem test_reset_font : (List.range 5).map (fun k => State.reset.byte (A12 k)) =
      [0xF0, 0x90, 0x90, 0x90, 0xF0] ∧
    (List.range 5).map (fun k => State.reset.byte (A12 (0x4B + k))) =
      [0xF0, 0x80, 0xF0, 0x80, 0x80] := by decide
theorem test_reset_memory_wf : State.reset.mem.wf := by decide
/-- V136: a reset clears the fault and sets `pc` back. -/
theorem test_reset_from_halted :
    let t := (HostOp.run .reset { withRegs [(3, 7)] with
      pc := 0x300, fault := some (.stackUnderflow 0x300) }).1
    (t.fault, t.pc, t.reg 3) = (none, 0x200, 0) := by decide
/-- R130: the mask is written whole. -/
theorem test_set_keys : (HostOp.run (.setKeys 0x0028) (fresh 1 false)).1.keys = 0x0028 := by decide
/-- V133. -/
theorem test_load : let t := (HostOp.run (.load [0x12, 0x34]) (fresh 1 false)).1
    (t.byte 0x200, t.byte 0x201, t.pc) = (0x12, 0x34, 0x200) := by decide
/-- V124, V125: `read_sound`. -/
theorem test_read_sound :
    (HostOp.run .readSound { fresh 1 false with ST := 0x1E }).2 = .sound 0x1E true ∧
    (HostOp.run .readSound (fresh 1 false)).2 = .sound 0x00 false := by decide
/-- V145: the record of a halted machine can be read. -/
theorem test_read_fault : (HostOp.run .readFault (hostStep 0 0 (fresh 1 false)).1).2 =
    .record (some (.invalidOpcode 0x0000 0x200)) := by decide
/-- The word that `withFetchWord` places runs as the first instruction after reset. -/
theorem test_withFetchWord : seen (·.reg 10) (step (State.reset.withFetchWord 16 0x6A42)) =
    some 0x42 := by rfl

/-! ## Witnesses: a state and operands that meet the hypotheses of each statement, all together -/

theorem witness_DecodeOfEncodeIsTheInstruction : (Instr.drw 15 0 15).wf = true := by decide

theorem witness_EncodeOfDecodeIsTheWord : decode 0xDF0F = .ok (.drw 15 0 15) := by rfl

theorem witness_WordIsValidExactlyWhenOneRowFits : decode 0x8AB4 = .ok (.addReg 10 11) ∧
    (opcodeRows.filter (·.fits 0x8AB4)).map (·.mnemonic) = ["ADD_reg"] := ⟨rfl, by decide⟩

/-- One word for each of the six clauses, and a word that meets none. -/
theorem witness_InvalidWordsOfEachFamily :
    (fieldOp 0x00E1 = 0x0 ∧ (0x00E1 : Word) ≠ 0x00E0 ∧ (0x00E1 : Word) ≠ 0x00EE) ∧
    (fieldOp 0x5AB1 = 0x5 ∧ fieldN 0x5AB1 ≠ 0x0) ∧
    (fieldOp 0x8ABF = 0x8 ∧ fieldN 0x8ABF ∈ [0x8, 0x9, 0xA, 0xB, 0xC, 0xD, 0xF]) ∧
    (fieldOp 0x9ABF = 0x9 ∧ fieldN 0x9ABF ≠ 0x0) ∧
    (fieldOp 0xEA9F = 0xE ∧ fieldKKNat 0xEA9F ∉ [0x9E, 0xA1]) ∧
    (fieldOp 0xFA66 = 0xF ∧
      fieldKKNat 0xFA66 ∉ [0x07, 0x0A, 0x15, 0x18, 0x1E, 0x29, 0x33, 0x55, 0x65]) ∧
    fieldOp 0x1000 = 0x1 := by decide

/-- A state at the last fetchable address that holds `6001` there. -/
def lastWord : State := ({ fresh 1 false with pc := 0xFFE } : State).placeAtPc 0x6001

theorem witness_StepRunsTheDecodedInstruction : lastWord.fault = none ∧ lastWord.pc.toNat ≤ 0xFFE ∧
    decode (lastWord.mem.wordAt lastWord.pc) = .ok (.ldImm 0 0x01) ∧
    ∃ t, exec (.ldImm 0 0x01) (lastWord.enter 0) = .next t := ⟨rfl, by decide, rfl, _, rfl⟩

theorem witness_PlacedWordIsRunNext : lastWord.mem.wf ∧
    decodeTableWord 16 0x8AB4 = some (.addReg 10 11) := ⟨by decide, rfl⟩

theorem witness_FetchIsBigEndianAndChecked : 0xFFE < ((0xFFF : Word)).toNat ∧ lastWord.pc.toNat ≤ 0xFFE :=
  by decide

theorem witness_InvalidOpcodeFaultsWithWordAndFetchAddress : State.reset.fault = none ∧
    State.reset.pc.toNat ≤ 0xFFE ∧
    ∀ i, decode (State.reset.mem.wordAt State.reset.pc) ≠ .ok i :=
  ⟨rfl, by decide, fun i h => by
    have : decode (State.reset.mem.wordAt State.reset.pc) = .error (.invalidOpcode 0) := rfl
    rw [this] at h
    cases h⟩

theorem witness_OutOfRangePcFaultsAtTheFetchOnly :
    ({ fresh 1 false with pc := 0xFFF } : State).fault = none ∧
    0xFFE < ({ fresh 1 false with pc := 0xFFF } : State).pc.toNat := by decide

theorem witness_StackBoundsAreFatal : ({ fresh 1 false with sp := 16 } : State).sp.val = 16 ∧
    (fresh 1 false).sp.val = 0 := by decide

theorem witness_OnlyCallAndReturnFaultInTheExecutePhase :
    exec .ret { fresh 1 false with pc := 0x202 } = .fault (.stackUnderflow 0x200) ∧
    exec (.call 0x300) { fresh 1 false with pc := 0x202, sp := 16 } =
      .fault (.stackOverflow 0x200) := by and_intros <;> rfl

theorem witness_ExecutionCompletesUnlessTheStackFaults :
    (Instr.ret = .ret → ({ fresh 1 false with sp := 1 } : State).sp.val ≠ 0) ∧
    (∀ nnn, Instr.call 0x300 = .call nnn → ({ fresh 1 false with sp := 15 } : State).sp.val ≠ 16) :=
  ⟨fun _ => by decide, fun _ _ => by decide⟩

/-- A halted machine, and an operation other than reset. -/
theorem witness_HaltedMachineStaysHalted :
    ({ fresh 1 false with fault := some (.stackUnderflow 0x200) } : State).fault =
      some (.stackUnderflow 0x200) ∧ HostOp.load [0x12, 0x34] ≠ .reset := ⟨rfl, by decide⟩

theorem witness_FaultingStepWritesOnlyTheRecord :
    hostStep 1 0 State.reset = (State.reset.takeFault (.invalidOpcode 0 0x200),
      .faulted (.invalidOpcode 0 0x200)) := by rfl

/-- A store that wraps, from a canonical memory that lists something. -/
theorem witness_ExecutionWritesOnlyItsOwnParts : (lastWord.setI 0xFFF).mem.wf ∧
    ∃ t, exec (.ldB 0) (lastWord.setI 0xFFF) = .next t := ⟨by decide, _, rfl⟩

theorem witness_StepWritesOnlyItsOwnParts : lastWord.mem.wf ∧ ∃ t, cycle 1 0 lastWord = .next t :=
  ⟨by decide, _, rfl⟩

theorem witness_CallPushesTheReturnAddress : ({ fresh 1 false with sp := 15 } : State).sp.val < 16 := by
  decide

theorem witness_ReturnPopsIntoPc : 0 < ({ fresh 1 false with sp := 16 } : State).sp.val ∧
    (15 : Fin 16).val + 1 = ({ fresh 1 false with sp := 16 } : State).sp.val := by decide

theorem witness_ReturnUndoesTheCall : ∃ t,
    exec (.call 0x300) { fresh 1 false with sp := 15 } = .next t ∧ t.sp = 16 := ⟨_, rfl, by decide⟩

/-- Each of the four conditions and its negation. -/
theorem witness_ComparisonSkipsAddTwo :
    (withRegs [(1, 5)]).reg 1 = 5 ∧ (withRegs [(1, 5)]).reg 1 ≠ 6 ∧
    (withRegs [(1, 5), (2, 5)]).reg 1 = (withRegs [(1, 5), (2, 5)]).reg 2 ∧
    (withRegs [(1, 5)]).reg 1 ≠ (withRegs [(1, 5)]).reg 2 := by decide

/-- The boundary of the carry and of the borrow. -/
theorem witness_carry_and_borrow :
    ((withRegs [(0, 0xFE), (1, 1)]).reg 0).toNat + ((withRegs [(0, 0xFE), (1, 1)]).reg 1).toNat = 255 ∧
    ((withRegs [(0, 0xFF), (1, 1)]).reg 0).toNat + ((withRegs [(0, 0xFF), (1, 1)]).reg 1).toNat = 256 ∧
    ((withRegs [(0, 7), (1, 7)]).reg 0).toNat ≥ ((withRegs [(0, 7), (1, 7)]).reg 1).toNat ∧
    ¬ ((withRegs [(0, 6), (1, 7)]).reg 0).toNat ≥ ((withRegs [(0, 6), (1, 7)]).reg 1).toNat := by decide

theorem witness_ShiftsMoveTheirSourceByOne :
    (1 : Nat) = (if (fresh 1 true).cfg.legacyShiftQuirk = true then ((fresh 1 true).setReg 1 1).reg 1
      else ((fresh 1 true).setReg 1 1).reg 0).toNat ∧
    (0 : Nat) = (if (fresh 1 false).cfg.legacyShiftQuirk = true then ((fresh 1 false).setReg 1 1).reg 1
      else ((fresh 1 false).setReg 1 1).reg 0).toNat := by decide

theorem witness_RandomIsTheDrawMasked : (0x0F : Byte).getLsbD 4 = false ∧ (3 : Reg) ≠ 15 := by decide

/-- Canonical memory, and an address outside the stored bytes. -/
theorem witness_BcdStoresThreeDigits : lastWord.mem.wf ∧
    ∀ k < 3, (0x303 : Addr) ≠ A12 ((lastWord.setI 0x300).I.toNat + k) := by decide

theorem witness_BlockStoreCopiesRegisters : lastWord.mem.wf ∧ (15 : Reg) ≤ 15 ∧
    ∀ k ≤ (15 : Reg).val, (0x310 : Addr) ≠ A12 ((lastWord.setI 0x300).I.toNat + k) := by decide

theorem witness_BlockStoreThenLoadRoundTrips : lastWord.mem.wf ∧
    ∃ t v, exec (.stRegs 3) lastWord = .next t ∧
      exec (.ldRegs 3) { t with I := lastWord.I } = .next v := ⟨by decide, _, _, rfl, rfl⟩

/-- The last pair of a full block, fetched at the last address that a fetch can read. -/
theorem witness_StoredBytesAreFetchedBigEndian : lastWord.mem.wf ∧
    (14 : Reg).val + 1 = (15 : Reg).val ∧ (15 : Reg) ≤ 15 ∧
    ∃ t, exec (.stRegs 15) (lastWord.setI 0xFF0) = .next t ∧
      ({ t with pc := 0xFFE } : State).pc.toNat = ((lastWord.setI 0xFF0).I.toNat + 14) % 0x1000 ∧
      ({ t with pc := 0xFFE } : State).pc.toNat ≤ 0xFFE :=
  ⟨by decide, by decide, by decide, _, rfl, by decide, by decide⟩

/-- Writing a byte back to what an unlisted address reads as gives the canonical memory again. -/
theorem witness_CanonicalMemoryIsItsBytes :
    Memory.wf (Memory.write (Memory.write [] 0x300 0x42) 0x300 0x00) ∧ Memory.wf [] ∧
    Memory.wf (Memory.write [] 0x000 0x42) := by decide

/-- A sprite over a lit cell (the collision clause) and over dark cells. -/
theorem witness_DrawXorsTheSprite :
    Display.get (Display.blank.put 7 0 true) 7 0 = true ∧
    spriteLit (sprite 0x01 0 0).spriteByte 1 0 0 7 0 = true ∧
    (fresh 1 false).pix.get 7 0 = false := by decide

/-- V97. -/
theorem witness_CollisionIsACellGoingDark :
    (Display.blank.put 7 0 true).get 7 0 = true ∧
    seen (fun t => (t.pix.get 7 0, t.reg 15))
      (exec (.drw 0 1 1) { sprite 0x01 0 0 with pix := Display.blank.put 7 0 true }) =
      some (false, 1) := by decide

/-- V94, V95: the first start outside the grid, and the last one inside it. -/
theorem witness_SpritesAreClippedNotWrapped :
    64 ≤ ((sprite 0xFF 64 0).reg 0).toNat ∧ 32 ≤ ((sprite 0xFF 0 32).reg 1).toNat ∧
    62 < ((sprite 0xFF 63 31).reg 0).toNat ∧ 30 < ((sprite 0xFF 63 31).reg 1).toNat := by decide

/-- Coordinates outside `RF`, and one in `RF` that the first draw leaves 0. -/
theorem witness_DrawingTwiceRestoresTheDisplay :
    (¬ ((0 : Reg) = 15 ∨ (1 : Reg) = 15) ∧
      ∃ t u, exec (.drw 0 1 1) (sprite 0xFF 8 4) = .next t ∧ exec (.drw 0 1 1) t = .next u) ∧
    (∃ t u, exec (.drw 15 1 1) (sprite 0xFF 8 4) = .next t ∧ exec (.drw 15 1 1) t = .next u ∧
      t.reg 15 = (sprite 0xFF 8 4).reg 15) ∧
    ∀ col row, (sprite 0xFF 8 4).pix.get col row = false :=
  ⟨⟨by decide, _, _, rfl, rfl⟩, ⟨_, _, rfl, rfl, by decide⟩, Display.get_blank⟩

theorem witness_RedrawIsSetByDrawingAndClearedByTheHost :
    Instr.ldI 0x300 ≠ .cls ∧ (∀ x y n, Instr.ldI 0x300 ≠ .drw x y n) ∧
    (∃ t, exec (.ldI 0x300) { fresh 1 false with redraw := true } = .next t) ∧
    HostOp.step 0 0 ≠ .clearRedraw ∧ HostOp.step 0 0 ≠ .reset ∧
    ({ fresh 1 false with redraw := true } : State).redraw = true :=
  ⟨by decide, fun _ _ _ => by simp, ⟨_, rfl⟩, by decide, by decide, rfl⟩

/-- The last key index and the first that names no key. -/
theorem witness_KeySkipsTestOneKey :
    (((withRegs [(0, 15)]).reg 0).toNat ≤ 15 ∧ (0x8000 : Word).getLsbD 15 = true) ∧
    ¬ (((withRegs [(0, 16)]).reg 0).toNat ≤ 15) := by decide

theorem witness_KeyWaitRewindsOrTakesTheLowestKey :
    (fresh 1 false).keys = 0 ∧ ({ fresh 1 false with keys := 0x8000 } : State).keys ≠ 0 := by decide

/-- Two steps with an empty accumulator before them. -/
theorem witness_TicksFollowElapsedTime :
    ((fresh 3 false).placeAtPc 0x1200).tickAcc = 0 ∧
    (runSteps [(2, 0), (5, 0)] ((fresh 3 false).placeAtPc 0x1200)).map (fun r => (r.1.tickAcc, r.2)) =
      some (1, 2) := by decide

theorem witness_SoundRedrawAndTickAccAreNeverRead : ∃ t, exec (.ldSt 4) (fresh 1 false) = .next t :=
  ⟨_, rfl⟩

/-- The first dead entry, just above one live one. -/
theorem witness_DeadStackEntriesAreNeverRead :
    ({ fresh 1 false with sp := 1 } : State).sp.val ≤ (1 : Fin 16).val ∧
    ∃ t, exec .ret { fresh 1 false with sp := 1 } = .next t := ⟨by decide, _, rfl⟩

theorem witness_DrawAndQuirkReachOnlyTheirInstructions :
    (∀ x kk, Instr.shr 0 1 ≠ .rnd x kk) ∧ (∀ x y, Instr.rnd 0 1 ≠ .shr x y) ∧
    ∀ x y, Instr.rnd 0 1 ≠ .shl x y := by simp

/-- The longest program that fits, and the shortest that does not. -/
theorem witness_load_lengths : (List.replicate 3584 (0x00 : Byte)).length ≤ 3584 ∧
    3584 < (List.replicate 3585 (0x00 : Byte)).length := by
  rw [List.length_replicate, List.length_replicate]
  decide

theorem witness_LoadWritesOnlyItsBytes : (fresh 1 false).mem.wf := by decide

theorem witness_HostReadsTheDisplayAndClearsRedraw : HostOp.setKeys 1 ≠ .reset ∧
    ∀ dt rnd, HostOp.setKeys 1 ≠ .step dt rnd := ⟨by decide, fun _ _ => by simp⟩

theorem witness_ResetMeetsTheInvariant : 1 ≤ (fresh 1 false).cfg.tickUnits := by decide

theorem lastWord_inv : lastWord.Inv :=
  ⟨by decide, by decide, by decide, by decide, by decide⟩

theorem witness_StepKeepsTheInvariant : lastWord.Inv ∧ ∃ t, step lastWord = .next t :=
  ⟨lastWord_inv, _, rfl⟩

/-- A load and two steps, from a machine with known parameters. -/
theorem witness_ReachableStatesMeetTheInvariant :
    Reachable (session [.load [0x60, 0x01, 0x12, 0x00], .step 1 0, .step 1 0] (fresh 1 false)) :=
  ⟨(fresh 1 false).cfg, _, by decide, rfl⟩

end Sys2Proof.Tests
end

section
/-! The encoding family: what `encode` gives back on a decoded word, and the opcode map as an exact
account of the valid words (spec 30_encoding.md R57 to R63). -/

namespace Sys2Proof

/-! ## A word is put together from its fields -/

theorem fieldN_lt (w : Word) : fieldN w < 16 := Nat.mod_lt _ (by decide)

theorem fieldKKNat_lt (w : Word) : fieldKKNat w < 256 := Nat.mod_lt _ (by decide)

theorem fieldKK_toNat (w : Word) : (fieldKK w).toNat = fieldKKNat w := by
  rw [fieldKK, BitVec.toNat_ofNat]
  exact Nat.mod_eq_of_lt (fieldKKNat_lt w)

theorem encNNN_fields (w : Word) : encNNN (fieldOp w) (fieldNNN w) = w := by
  have := w.isLt
  apply BitVec.eq_of_toNat_eq
  simp only [encNNN, fieldOp, fieldNNN, bits, BitVec.toNat_ofNat]
  omega

theorem encXKK_fields (w : Word) : encXKK (fieldOp w) (fieldX w) (fieldKKNat w) = w := by
  have := w.isLt
  apply BitVec.eq_of_toNat_eq
  simp only [encXKK, fieldOp, fieldX, fieldKKNat, bits, BitVec.toNat_ofNat, Fin.val_ofNat]
  omega

theorem encXYN_fields (w : Word) :
    encXYN (fieldOp w) (fieldX w) (fieldY w) (fieldN w) = w := by
  have := w.isLt
  apply BitVec.eq_of_toNat_eq
  simp only [encXYN, fieldOp, fieldX, fieldY, fieldN, bits, BitVec.toNat_ofNat, Fin.val_ofNat]
  omega

/-! ## Encoding a decoded word -/

/-- What the decoder gives is well formed, and its word is the one decoded (R60, R61). The cases are
the families; those with a second level of dispatch are split again. -/
theorem encode_of_decode {w : Word} {i : Instr} (h : decode w = .ok i) :
    i.wf = true ∧ encode i = w := by
  have hnnn := encNNN_fields w
  have hxkk := encXKK_fields w
  have hxyn := encXYN_fields w
  unfold decode at h
  split at h
  case h_17 => cases h
  all_goals rename_i hop; rw [hop] at hnnn hxkk hxyn
  case h_1 =>
    unfold decode0 at h
    split at h <;> cases h <;> next hw => exact ⟨rfl, BitVec.eq_of_toNat_eq hw.symm⟩
  case h_2 | h_3 | h_11 | h_12 => cases h; exact ⟨rfl, hnnn⟩
  case h_4 | h_5 | h_7 | h_8 | h_13 =>
    cases h
    rw [← fieldKK_toNat] at hxkk
    exact ⟨rfl, hxkk⟩
  case h_14 =>
    cases h
    exact ⟨decide_eq_true (Nat.le_of_lt_succ (fieldN_lt w)), hxyn⟩
  case h_6 | h_9 | h_10 =>
    simp only [decode5, decode8, decode9] at h
    split at h <;> cases h <;> next hn => rw [hn] at hxyn; exact ⟨rfl, hxyn⟩
  case h_15 | h_16 =>
    simp only [decodeE, decodeF] at h
    split at h <;> cases h <;> next hk => rw [hk] at hxkk; exact ⟨rfl, hxkk⟩

/-! ## A decoded word fits the row of its instruction -/

/-- The per-instruction family `EncodesRow`, of every instruction. -/
theorem encode_fits_row : ∀ i : Instr, Laws.EncodesRow.Statement i
  | .cls => Laws.EncodesRow.cls
  | .ret => Laws.EncodesRow.ret
  | .jp nnn => Laws.EncodesRow.jp nnn
  | .call nnn => Laws.EncodesRow.call nnn
  | .seImm x kk => Laws.EncodesRow.seImm x kk
  | .sneImm x kk => Laws.EncodesRow.sneImm x kk
  | .seReg x y => Laws.EncodesRow.seReg x y
  | .ldImm x kk => Laws.EncodesRow.ldImm x kk
  | .addImm x kk => Laws.EncodesRow.addImm x kk
  | .ldReg x y => Laws.EncodesRow.ldReg x y
  | .or x y => Laws.EncodesRow.or x y
  | .and x y => Laws.EncodesRow.and x y
  | .xor x y => Laws.EncodesRow.xor x y
  | .addReg x y => Laws.EncodesRow.addReg x y
  | .sub x y => Laws.EncodesRow.sub x y
  | .shr x y => Laws.EncodesRow.shr x y
  | .subn x y => Laws.EncodesRow.subn x y
  | .shl x y => Laws.EncodesRow.shl x y
  | .sneReg x y => Laws.EncodesRow.sneReg x y
  | .ldI nnn => Laws.EncodesRow.ldI nnn
  | .jpR0 nnn => Laws.EncodesRow.jpR0 nnn
  | .rnd x kk => Laws.EncodesRow.rnd x kk
  | .drw x y n => Laws.EncodesRow.drw x y n
  | .skp x => Laws.EncodesRow.skp x
  | .sknp x => Laws.EncodesRow.sknp x
  | .ldRDt x => Laws.EncodesRow.ldRDt x
  | .ldRK x => Laws.EncodesRow.ldRK x
  | .ldDt x => Laws.EncodesRow.ldDt x
  | .ldSt x => Laws.EncodesRow.ldSt x
  | .addI x => Laws.EncodesRow.addI x
  | .ldF x => Laws.EncodesRow.ldF x
  | .ldB x => Laws.EncodesRow.ldB x
  | .stRegs x => Laws.EncodesRow.stRegs x
  | .ldRegs x => Laws.EncodesRow.ldRegs x

theorem decode_fits_row {w : Word} {i : Instr} (h : decode w = .ok i) :
    ∃ row ∈ opcodeRows, row.fits w = true ∧ row.mnemonic = i.mnemonic := by
  obtain ⟨hwf, hw⟩ := encode_of_decode h
  obtain ⟨row, hmem, hname, hfits⟩ := encode_fits_row i hwf
  exact ⟨row, hmem, hw ▸ hfits, hname⟩

/-! ## No word fits two rows -/

/-- Two rows that agree on the bits both masks keep are one row. -/
theorem opcodeRows_separated : ∀ r ∈ opcodeRows, ∀ r' ∈ opcodeRows,
    r.pattern &&& r'.mask = r'.pattern &&& r.mask → r = r' := by decide

theorem fits_unique {w : Word} {r r' : OpcodeRow} (hr : r ∈ opcodeRows) (hr' : r' ∈ opcodeRows)
    (h : r.fits w = true) (h' : r'.fits w = true) : r = r' := by
  have hp : w &&& r.mask = r.pattern := eq_of_beq h
  have hp' : w &&& r'.mask = r'.pattern := eq_of_beq h'
  apply opcodeRows_separated r hr r' hr'
  rw [← hp, ← hp', BitVec.and_assoc, BitVec.and_assoc, BitVec.and_comm r.mask]

/-! ## A word that fits a row decodes

The rows by their mask: each mask keeps the fields that one level of the dispatch reads. -/

/-- The patterns of the rows with a given mask, as numbers. -/
def patternsUnder (mask : Word) : List Nat :=
  (opcodeRows.filter (·.mask = mask)).map (·.pattern.toNat)

theorem pattern_mem_patternsUnder {r : OpcodeRow} (hr : r ∈ opcodeRows) :
    r.pattern.toNat ∈ patternsUnder r.mask :=
  List.mem_map_of_mem (List.mem_filter.mpr ⟨hr, decide_eq_true rfl⟩)

theorem opcodeRows_masks : ∀ r ∈ opcodeRows,
    r.mask = 0xFFFF ∨ r.mask = 0xF000 ∨ r.mask = 0xF00F ∨ r.mask = 0xF0FF := by decide

theorem patternsUnder_FFFF : patternsUnder 0xFFFF = [0x00E0, 0x00EE] := by decide

theorem patternsUnder_F000 : patternsUnder 0xF000 =
    [0x1000, 0x2000, 0x3000, 0x4000, 0x6000, 0x7000, 0xA000, 0xB000, 0xC000, 0xD000] := by decide

theorem patternsUnder_F00F : patternsUnder 0xF00F =
    [0x5000, 0x8000, 0x8001, 0x8002, 0x8003, 0x8004, 0x8005, 0x8006, 0x8007, 0x800E, 0x9000] := by
  decide

theorem patternsUnder_F0FF : patternsUnder 0xF0FF =
    [0xE09E, 0xE0A1, 0xF007, 0xF00A, 0xF015, 0xF018, 0xF01E, 0xF029, 0xF033, 0xF055, 0xF065] := by
  decide

/-- Family 0, matched whole (R62). -/
theorem decodes_of_word {w : Word} (h : w.toNat ∈ patternsUnder 0xFFFF) :
    ∃ i, decode w = .ok i := by
  rw [patternsUnder_FFFF] at h
  have hop : fieldOp w = w.toNat / 4096 % 16 := rfl
  generalize hp : w.toNat = p at h hop
  fin_cases h <;> simp [decode, decode0, hop, hp]

/-- The families that `op` alone selects. -/
theorem decodes_of_op {w : Word} (h : fieldOp w * 4096 ∈ patternsUnder 0xF000) :
    ∃ i, decode w = .ok i := by
  rw [patternsUnder_F000] at h
  have hop : fieldOp w = fieldOp w * 4096 / 4096 := by omega
  generalize fieldOp w * 4096 = p at h hop
  fin_cases h <;> simp [decode, hop]

/-- Families 5, 8 and 9, selected by `n` (R61). -/
theorem decodes_of_op_n {w : Word} (h : fieldOp w * 4096 + fieldN w ∈ patternsUnder 0xF00F) :
    ∃ i, decode w = .ok i := by
  rw [patternsUnder_F00F] at h
  have := fieldN_lt w
  have hop : fieldOp w = (fieldOp w * 4096 + fieldN w) / 4096 := by omega
  have hn : fieldN w = (fieldOp w * 4096 + fieldN w) % 4096 := by omega
  generalize fieldOp w * 4096 + fieldN w = p at h hop hn
  fin_cases h <;> simp [decode, decode5, decode8, decode9, hop, hn]

/-- Families E and F, selected by `kk` (R61). -/
theorem decodes_of_op_kk {w : Word}
    (h : fieldOp w * 4096 + fieldKKNat w ∈ patternsUnder 0xF0FF) : ∃ i, decode w = .ok i := by
  rw [patternsUnder_F0FF] at h
  have := fieldKKNat_lt w
  have hop : fieldOp w = (fieldOp w * 4096 + fieldKKNat w) / 4096 := by omega
  have hk : fieldKKNat w = (fieldOp w * 4096 + fieldKKNat w) % 4096 := by omega
  generalize fieldOp w * 4096 + fieldKKNat w = p at h hop hk
  fin_cases h <;> simp [decode, decodeE, decodeF, hop, hk]

theorem decodes_of_fits {w : Word} {r : OpcodeRow} (hr : r ∈ opcodeRows)
    (h : r.fits w = true) : ∃ i, decode w = .ok i := by
  have hp := pattern_mem_patternsUnder hr
  have hm := opcodeRows_masks r hr
  obtain ⟨m, p, mask⟩ := r
  rcases hm with rfl | rfl | rfl | rfl
  · exact decodes_of_word ((fits_FFFF m p w).mp h ▸ hp)
  · exact decodes_of_op ((fits_F000 m p w).mp h ▸ hp)
  · exact decodes_of_op_n ((fits_F00F m p w).mp h ▸ hp)
  · exact decodes_of_op_kk ((fits_F0FF m p w).mp h ▸ hp)

/-- Settles O3: a decoded word is its instruction's encoding, which fits the row of its mnemonic; no
two rows agree on the bits both keep; and each row's bits lead the dispatch to an instruction. -/
theorem wordIsValidExactlyWhenOneRowFits : Obligations.WordIsValidExactlyWhenOneRowFits := by
  unfold Obligations.WordIsValidExactlyWhenOneRowFits
  refine fun w => ⟨⟨?_, ?_⟩, fun i hi => decode_fits_row hi⟩
  · rintro ⟨i, hi⟩
    obtain ⟨row, hrow, hfits, -⟩ := decode_fits_row hi
    exact ⟨row, hrow, hfits, fun r hr h => fits_unique hr hrow h hfits⟩
  · rintro ⟨row, hrow, hfits, -⟩
    exact decodes_of_fits hrow hfits

end Sys2Proof
end

section
/-! The control family: jumps, calls, returns and skips (spec 40_control.md). -/

namespace Sys2Proof.Machine

/-- Settles O18: the execute phase of `1nnn` is `State.jump` to `zext16 nnn` and nothing else (R70),
and the extension keeps the value of the address. -/
theorem jumpSetsPc : Obligations.JumpSetsPc := by
  unfold Obligations.JumpSetsPc
  exact fun nnn s => ⟨s.jump (zext16 nnn), exec_jp s nnn, zext16_toNat nnn, s.jump_R _⟩

end Sys2Proof.Machine
end

section
/-! The register family: loads and the add of an immediate, which write no flag (spec 41_alu.md). -/

namespace Sys2Proof.Machine

theorem State.reg_setReg_same (s : State) (r : Reg) (v : Byte) : (s.setReg r v).reg r = v := by
  rw [State.reg_setReg, if_pos rfl]

theorem State.reg_setReg_of_ne (s : State) {r q : Reg} (v : Byte) (h : r ≠ q) :
    (s.setReg r v).reg q = s.reg q := by
  rw [State.reg_setReg, if_neg h.symm]

/-- Settles O24: the execute phase of each of the three is one `State.setReg` of `x` (R78, R79, R80),
so `x` holds the value put there and `RF`, when it is another register, is as before. -/
theorem loadsAndAddImmediateWriteNoFlag : Obligations.LoadsAndAddImmediateWriteNoFlag := by
  unfold Obligations.LoadsAndAddImmediateWriteNoFlag
  intro x y kk s
  refine ⟨⟨_, exec_ldImm s x kk, s.reg_setReg_same x _, s.reg_setReg_of_ne _⟩,
    ⟨_, exec_addImm s x kk, ?sum, s.reg_setReg_of_ne _⟩,
    ⟨_, exec_ldReg s x y, s.reg_setReg_same x _, s.reg_setReg_of_ne _⟩⟩
  case sum => rw [State.reg_setReg_same, add8_toNat]

end Sys2Proof.Machine
end

section
/-! The index family: loads of `I` (spec 42_index_memory.md). -/

namespace Sys2Proof.Machine

/-- Five times a byte is an address as it stands, so the reduction of `A12` does nothing to it (R93). -/
theorem A12_byte_mul_five_toNat (v : Byte) : (A12 (v.toNat * 5)).toNat = v.toNat * 5 := by
  have := v.isLt
  rw [A12_toNat]
  omega

/-- Settles O30: the execute phase of each is one `State.setI` (R91, R93), and the index computed from a
byte never reaches 0x1000, so the full `Rx` counts. -/
theorem indexLoadsAreExact : Obligations.IndexLoadsAreExact := by
  unfold Obligations.IndexLoadsAreExact
  exact fun nnn x s =>
    ⟨⟨s.setI nnn, exec_ldI s nnn, s.setI_I nnn, s.setI_R nnn⟩,
      ⟨s.setI _, exec_ldF s x, A12_byte_mul_five_toNat (s.reg x), s.setI_R _⟩⟩

end Sys2Proof.Machine
end

section
/-! The display family: clear, collision and the redraw flag (spec 43_display.md). -/

namespace Sys2Proof.Machine

/-! ## Clear -/

/-- Settles O38: the execute phase of `00E0` is `State.clearDisplay` (R99), which looks at no cell. -/
theorem clearDarkensEveryCell : Obligations.ClearDarkensEveryCell := by
  unfold Obligations.ClearDarkensEveryCell
  exact fun s => ⟨s.clearDisplay, exec_cls s, Display.get_blank, s.clearDisplay_redraw,
    s.clearDisplay_reg 15⟩

/-! ## Collision -/

theorem collision_eq_one_or_zero (hit : Bool) : collision hit = 1 ∨ collision hit = 0 := by
  cases hit <;> decide

theorem collision_eq_one_iff (hit : Bool) : collision hit = 1 ↔ hit = true := by
  cases hit <;> decide

theorem State.reg_RF_endBlit (s : State) (z : Blit) : (s.endBlit z).reg RF = collision z.hit := by
  rw [State.reg_endBlit, if_pos rfl]

/-- A lit cell goes dark exactly when the sprite has its bit set, since the blit is an XOR (R100): so
what `Blit.rows_hit` counts is the cells lit before and dark after. -/
theorem Display.blit_hit_iff (d : Display) (cx cy : Nat) (sprite : List Byte) :
    (d.blit cx cy sprite).hit = true ↔
      ∃ col row, d.get col row = true ∧ (d.blit cx cy sprite).pix.get col row = false := by
  have hdark : ∀ col row, spriteBit cx cy sprite col row = true ∧ d.get col row = true ↔
      d.get col row = true ∧ (d.blit cx cy sprite).pix.get col row = false := by
    intro col row
    rw [Display.blit, Blit.rows_get, and_comm]
    refine and_congr_right fun hlit => ?_
    rw [hlit, Bool.true_xor, Bool.not_eq_false']
  simp only [← hdark]
  rw [Display.blit, Blit.rows_hit]
  exact or_iff_right Bool.false_ne_true

/-- Settles O40: `RF` holds the collision of the blit (R103), whose display is the one after the draw. -/
theorem collisionIsACellGoingDark : Obligations.CollisionIsACellGoingDark := by
  unfold Obligations.CollisionIsACellGoingDark
  intro x y n s
  refine ⟨_, exec_drw s x y n, ?_⟩
  rw [State.reg_RF_endBlit, State.endBlit_pix]
  exact ⟨collision_eq_one_or_zero _, (collision_eq_one_iff _).trans (Display.blit_hit_iff _ _ _ _)⟩

/-! ## The redraw flag -/

/-- Only `00E0` and `Dxyn` write the redraw flag (R104). -/
theorem exec_redraw {i : Instr} {s t : State} (hcls : i ≠ .cls) (hdrw : ∀ x y n, i ≠ .drw x y n)
    (h : exec i s = .next t) : t.redraw = s.redraw := by
  cases i with
  | cls => exact absurd rfl hcls
  | drw x y n => exact absurd rfl (hdrw x y n)
  | ret =>
    rcases Nat.eq_zero_or_pos s.sp.val with hempty | hpos
    · rw [exec_ret_empty s hempty] at h
      cases h
    · rw [exec_ret_pop s hpos] at h
      cases h
      rfl
  | call nnn =>
    rcases Nat.lt_succ_iff_lt_or_eq.mp s.sp.isLt with hroom | hfull
    · rw [exec_call_push s nnn hroom] at h
      cases h
      rfl
    · rw [exec_call_full s nnn hfull] at h
      cases h
  | ldRK x =>
    obtain ⟨-, hx⟩ | ⟨k, -, hx⟩ := exec_ldRK_cases x s <;> rw [hx] at h <;> cases h <;> rfl
  | seImm | sneImm | seReg | sneReg | skp | sknp =>
    cases h
    exact State.skipIf_redraw _ _
  | _ =>
    cases h
    rfl

theorem exec_keeps_redraw_set {i : Instr} {s t : State} (hs : s.redraw = true)
    (h : exec i s = .next t) : t.redraw = true := by
  by_cases hcls : i = .cls
  · subst hcls
    cases h
    exact s.clearDisplay_redraw
  by_cases hdrw : ∃ x y n, i = .drw x y n
  · obtain ⟨x, y, n, rfl⟩ := hdrw
    cases h
    exact State.endBlit_redraw _ _
  · exact (exec_redraw hcls (fun x y n hi => hdrw ⟨x, y, n, hi⟩) h).trans hs

/-- A step keeps a redraw flag that is set: one with a next state by its instruction, a fault because
it writes the record alone (R119). -/
theorem hostStep_keeps_redraw_set (dt : Nat) (rnd : Byte) {s : State} (hs : s.redraw = true) :
    (hostStep dt rnd s).1.redraw = true := by
  unfold hostStep
  rcases hc : cycle dt rnd s with t | f | r
  · obtain ⟨i, u, -, -, -, hx, rfl⟩ := cycle_next hc
    have hu : u.redraw = true := exec_keeps_redraw_set (s := s.enter rnd) hs hx
    exact hu
  · exact hs
  · exact hs

theorem HostOp.run_keeps_redraw_set {o : HostOp} {s : State} (hclear : o ≠ .clearRedraw)
    (hreset : o ≠ .reset) (hs : s.redraw = true) : (o.run s).1.redraw = true := by
  cases o with
  | clearRedraw => exact absurd rfl hclear
  | reset => exact absurd rfl hreset
  | step dt rnd => exact hostStep_keeps_redraw_set dt rnd hs
  | load bytes =>
    simp only [HostOp.run]
    split <;> exact hs
  | setKeys | readDisplay | readSound | readFault => exact hs

/-- Settles O43: `State.clearDisplay` and `State.endBlit` set the flag (R99, R100), no other execute
phase writes it, and of the host operations only `clear_redraw` and reset can clear it (R104). -/
theorem redrawIsSetByDrawingAndClearedByTheHost :
    Obligations.RedrawIsSetByDrawingAndClearedByTheHost := by
  unfold Obligations.RedrawIsSetByDrawingAndClearedByTheHost
  exact ⟨fun s => ⟨_, exec_cls s, s.clearDisplay_redraw⟩,
    fun x y n s => ⟨_, exec_drw s x y n, State.endBlit_redraw _ _⟩,
    fun _ _ _ hcls hdrw h => exec_redraw hcls hdrw h,
    fun _ _ hclear hreset hs => HostOp.run_keeps_redraw_set hclear hreset hs⟩

end Sys2Proof.Machine
end

section
/-! The host family: the reads and the writes of the host (spec 60_exceptions.md). -/

namespace Sys2Proof.Machine

/-- The host's `clear_redraw` writes the redraw flag alone (R129). -/
theorem HostOp.run_clearRedraw_frame (s : State) :
    UnchangedOutside (· = .redraw) s (HostOp.clearRedraw.run s).1 := by
  intro p hp
  cases p with
  | redraw => exact absurd rfl hp
  | _ => rfl

/-- The host writes no pixel: the machine's own step apart, only a reset changes a cell (R129). -/
theorem HostOp.run_keeps_pix {o : HostOp} (s : State) (hreset : o ≠ .reset)
    (hstep : ∀ dt rnd, o ≠ .step dt rnd) : (o.run s).1.pix = s.pix := by
  cases o with
  | reset => exact absurd rfl hreset
  | step dt rnd => exact absurd rfl (hstep dt rnd)
  | load bytes =>
    simp only [HostOp.run]
    split <;> rfl
  | setKeys | readDisplay | clearRedraw | readSound | readFault => rfl

/-- Settles O56: `read_display` hands out the cells and the flag of the state it leaves as it was, and
`clear_redraw` has the flag for its whole frame. -/
theorem hostReadsTheDisplayAndClearsRedraw : Obligations.HostReadsTheDisplayAndClearsRedraw := by
  unfold Obligations.HostReadsTheDisplayAndClearsRedraw
  exact fun s => ⟨rfl, rfl, HostOp.run_clearRedraw_frame s,
    fun _ hreset hstep => HostOp.run_keeps_pix s hreset hstep⟩

end Sys2Proof.Machine
end

section
/-! The load family: a program that does not fit (spec 70_reset_and_hazards.md R140). -/

namespace Sys2Proof.Machine

/-- The length check comes first: a program longer than `maxProgram` is refused before any byte of it
is written. -/
theorem HostOp.run_load_of_maxProgram_lt {bytes : List Byte} (s : State)
    (h : maxProgram < bytes.length) : (HostOp.load bytes).run s = (s, .romTooLarge) :=
  if_pos h

/-- Settles O55: 3584 is `maxProgram`, and the load's length check answers with the state as it was. -/
theorem failedLoadChangesNothing : Obligations.FailedLoadChangesNothing := by
  unfold Obligations.FailedLoadChangesNothing
  exact fun _ s h => HostOp.run_load_of_maxProgram_lt s h

end Sys2Proof.Machine
end

section
/-! The decoder on an encoded word, and the words it rejects (spec 30_encoding.md R57 to R63). -/

namespace Sys2Proof

/-! ## The fields of an encoded word, as rewrite rules -/

section
variable (op : Nat) (h : op < 16) (x y : Reg)
include h

@[simp] theorem fieldOp_encNNN (nnn : Addr) : fieldOp (encNNN op nnn) = op :=
  (fields_encNNN op nnn h).1

@[simp] theorem fieldNNN_encNNN (nnn : Addr) : fieldNNN (encNNN op nnn) = nnn :=
  (fields_encNNN op nnn h).2

@[simp] theorem fieldOp_encXKK (kk : Nat) (hk : kk < 256) : fieldOp (encXKK op x kk) = op :=
  (fields_encXKK op x kk h hk).1

@[simp] theorem fieldX_encXKK (kk : Nat) (hk : kk < 256) : fieldX (encXKK op x kk) = x :=
  (fields_encXKK op x kk h hk).2.1

@[simp] theorem fieldKKNat_encXKK (kk : Nat) (hk : kk < 256) :
    fieldKKNat (encXKK op x kk) = kk := (fields_encXKK op x kk h hk).2.2.1

@[simp] theorem fieldKK_encXKK (kk : Byte) : fieldKK (encXKK op x kk.toNat) = kk := by
  rw [(fields_encXKK op x kk.toNat h kk.isLt).2.2.2, BitVec.ofNat_toNat, BitVec.setWidth_eq]

@[simp] theorem fieldOp_encXYN (n : Nat) (hn : n < 16) : fieldOp (encXYN op x y n) = op :=
  (fields_encXYN op x y n h hn).1

@[simp] theorem fieldX_encXYN (n : Nat) (hn : n < 16) : fieldX (encXYN op x y n) = x :=
  (fields_encXYN op x y n h hn).2.1

@[simp] theorem fieldY_encXYN (n : Nat) (hn : n < 16) : fieldY (encXYN op x y n) = y :=
  (fields_encXYN op x y n h hn).2.2.1

@[simp] theorem fieldN_encXYN (n : Nat) (hn : n < 16) : fieldN (encXYN op x y n) = n :=
  (fields_encXYN op x y n h hn).2.2.2

end

/-- The dispatch finds an encoded instruction by the fields of its format (R58, R60, R61). The cases
are grouped by format; the row count is the one operand with a bound of its own. -/
theorem decode_encode {i : Instr} (hwf : i.wf = true) : decode (encode i) = .ok i := by
  cases i with
  | cls | ret => rfl
  | jp nnn | call nnn | ldI nnn | jpR0 nnn => simp [encode, decode]
  | seImm x kk | sneImm x kk | ldImm x kk | addImm x kk | rnd x kk =>
    have := kk.isLt
    simp [encode, decode, this]
  | drw x y n =>
    have : n < 16 := Nat.lt_succ_of_le (of_decide_eq_true hwf)
    simp [encode, decode, this]
  | seReg x y => simp [encode, decode, decode5]
  | sneReg x y => simp [encode, decode, decode9]
  | ldReg x y | or x y | and x y | xor x y | addReg x y | sub x y | shr x y | subn x y | shl x y =>
    simp [encode, decode, decode8]
  | skp x | sknp x => simp [encode, decode, decodeE]
  | ldRDt x | ldRK x | ldDt x | ldSt x | addI x | ldF x | ldB x | stRegs x | ldRegs x =>
    simp [encode, decode, decodeF]

/-- Settles O1: every field of an encoded word reads back as the operand it was made from, so the
two-level dispatch leads back to the instruction. -/
theorem decodeOfEncodeIsTheInstruction : Obligations.DecodeOfEncodeIsTheInstruction := by
  unfold Obligations.DecodeOfEncodeIsTheInstruction
  exact fun _ hwf => decode_encode hwf

/-- Settles O2: the formats keep every bit of the word, so encoding its instruction puts it together
again. -/
theorem encodeOfDecodeIsTheWord : Obligations.EncodeOfDecodeIsTheWord := by
  unfold Obligations.EncodeOfDecodeIsTheWord
  exact fun _ _ h => encode_of_decode h

/-! ## The words each family rejects -/

theorem decode0_eq_error (w : Word) :
    decode0 w = .error (.invalidOpcode w) ↔ w ≠ 0x00E0 ∧ w ≠ 0x00EE := by
  simp only [decode0, Ne, ← BitVec.toNat_inj]
  split <;> simp_all

theorem decode5_eq_error (w : Word) :
    decode5 w = .error (.invalidOpcode w) ↔ fieldN w ≠ 0x0 := by
  unfold decode5
  split <;> simp_all

theorem decode8_eq_error (w : Word) : decode8 w = .error (.invalidOpcode w) ↔
    fieldN w ∈ [0x8, 0x9, 0xA, 0xB, 0xC, 0xD, 0xF] := by
  have := fieldN_lt w
  unfold decode8
  split
  case h_10 =>
    simp only [List.mem_cons, List.not_mem_nil, or_false, true_iff, imp_false] at *
    omega
  all_goals simp [*]

theorem decode9_eq_error (w : Word) :
    decode9 w = .error (.invalidOpcode w) ↔ fieldN w ≠ 0x0 := by
  unfold decode9
  split <;> simp_all

theorem decodeE_eq_error (w : Word) :
    decodeE w = .error (.invalidOpcode w) ↔ fieldKKNat w ∉ [0x9E, 0xA1] := by
  unfold decodeE
  split <;> simp_all

theorem decodeF_eq_error (w : Word) : decodeF w = .error (.invalidOpcode w) ↔
    fieldKKNat w ∉ [0x07, 0x0A, 0x15, 0x18, 0x1E, 0x29, 0x33, 0x55, 0x65] := by
  unfold decodeF
  split <;> simp_all

/-- Settles O4: the family nibble picks the one clause that can hold, and within the family the
second-level dispatch rejects what that clause names; the other ten families reject nothing. -/
theorem invalidWordsOfEachFamily : Obligations.InvalidWordsOfEachFamily := by
  unfold Obligations.InvalidWordsOfEachFamily
  intro w
  have hlt : fieldOp w < 16 := Nat.mod_lt _ (by decide)
  unfold decode
  split
  case h_17 =>
    exfalso
    simp only [imp_false] at *
    omega
  all_goals
    next hop =>
      simp [hop, decode0_eq_error, decode5_eq_error, decode8_eq_error, decode9_eq_error,
        decodeE_eq_error, decodeF_eq_error]

/-- Settles O5, by running the decoder on the nine words. -/
theorem sampleWordsDecode : Obligations.SampleWordsDecode := by
  unfold Obligations.SampleWordsDecode
  and_intros <;> rfl

end Sys2Proof
end

section
/-! What an execute phase can do: the one case split over the instructions that says which outcomes
there are, and the next states of the instructions that have more than one (spec 40_control.md,
44_timer_input.md, 60_exceptions.md). -/

namespace Sys2Proof.Machine

/-! ## Outcomes -/

/-- A return gives a next state only on a stack that is not empty (R69). -/
theorem exec_ret_next {s t : State} (h : exec .ret s = .next t) :
    ∃ hpos : 0 < s.sp.val, t = s.pop hpos := by
  rcases Nat.eq_zero_or_pos s.sp.val with hempty | hpos
  · rw [exec_ret_empty s hempty] at h
    cases h
  · rw [exec_ret_pop s hpos] at h
    cases h
    exact ⟨hpos, rfl⟩

/-- A call gives a next state only on a stack that is not full (R71). -/
theorem exec_call_next {nnn : Addr} {s t : State} (h : exec (.call nnn) s = .next t) :
    ∃ hroom : s.sp.val < 16, t = (s.push hroom).jump (zext16 nnn) := by
  rcases Nat.lt_succ_iff_lt_or_eq.mp s.sp.isLt with hroom | hfull
  · rw [exec_call_push s nnn hroom] at h
    cases h
    exact ⟨hroom, rfl⟩
  · rw [exec_call_full s nnn hfull] at h
    cases h

/-- A key-wait rewinds when no key is down and takes the lowest key otherwise (R108). -/
theorem exec_ldRK_next {x : Reg} {s t : State} (h : exec (.ldRK x) s = .next t) :
    (s.keys = 0 ∧ t = s.rewind) ∨
      ∃ k, lowestKey s.keys = some k ∧ t = s.setReg x (BitVec.ofNat 8 k) := by
  obtain ⟨hno, hx⟩ | ⟨k, hk, hx⟩ := exec_ldRK_cases x s
  · rw [hx] at h
    cases h
    exact .inl ⟨hno, rfl⟩
  · rw [hx] at h
    cases h
    exact .inr ⟨k, hk, rfl⟩

/-- The one next state of a block load. Its register file is built by a function of the index, which
`rfl` is slow to see through, so the case splits below go through this and the laws of `State.loadRegs`
(R96). -/
theorem exec_ldRegs_next {x : Reg} {s t : State} (h : exec (.ldRegs x) s = .next t) :
    t = (s.loadRegs x).setI (dataAddr s.I (x.val + 1)) :=
  (Host.Outcome.next.inj h).symm

/-- The outcomes of an execute phase: a next state, or one of the two stack faults (R111). -/
theorem exec_outcome (i : Instr) (s : State) :
    (∃ t, exec i s = .next t) ∨
    (i = .ret ∧ s.sp.val = 0 ∧ exec i s = .fault (.stackUnderflow (s.pc - 2))) ∨
    ∃ nnn, i = .call nnn ∧ s.sp.val = 16 ∧ exec i s = .fault (.stackOverflow (s.pc - 2)) := by
  cases i with
  | ret =>
    rcases Nat.eq_zero_or_pos s.sp.val with hempty | hpos
    · exact .inr (.inl ⟨rfl, hempty, exec_ret_empty s hempty⟩)
    · exact .inl ⟨_, exec_ret_pop s hpos⟩
  | call nnn =>
    rcases Nat.lt_succ_iff_lt_or_eq.mp s.sp.isLt with hroom | hfull
    · exact .inl ⟨_, exec_call_push s nnn hroom⟩
    · exact .inr (.inr ⟨nnn, rfl, hfull, exec_call_full s nnn hfull⟩)
  | ldRK x =>
    obtain ⟨-, hx⟩ | ⟨k, -, hx⟩ := exec_ldRK_cases x s <;> exact .inl ⟨_, hx⟩
  | _ => exact .inl ⟨_, rfl⟩

theorem exec_fault {i : Instr} {s : State} {f : Fault} (h : exec i s = .fault f) :
    (i = .ret ∧ s.sp.val = 0 ∧ f = .stackUnderflow (s.pc - 2)) ∨
    ∃ nnn, i = .call nnn ∧ s.sp.val = 16 ∧ f = .stackOverflow (s.pc - 2) := by
  obtain ⟨t, hx⟩ | ⟨hi, hsp, hx⟩ | ⟨nnn, hi, hsp, hx⟩ := exec_outcome i s <;>
    rw [hx] at h <;> cases h
  · exact .inl ⟨hi, hsp, rfl⟩
  · exact .inr ⟨nnn, hi, hsp, rfl⟩

theorem exec_ne_refused (i : Instr) (s : State) (r : Refusal) : exec i s ≠ .refused r := by
  intro h
  obtain ⟨t, hx⟩ | ⟨-, -, hx⟩ | ⟨nnn, -, -, hx⟩ := exec_outcome i s <;>
    rw [hx] at h <;> cases h

/-- A cycle refuses nothing: its own answers are faults, and no execute phase refuses. -/
theorem cycle_ne_refused (dt : Nat) (rnd : Byte) (s : State) (r : Refusal) :
    cycle dt rnd s ≠ .refused r := by
  unfold cycle
  split
  · exact nofun
  · split
    · exact nofun
    · split
      · exact nofun
      · next i _ =>
        rcases hx : exec i (s.enter rnd) with t | f | r'
        · exact nofun
        · exact nofun
        · exact absurd hx (exec_ne_refused _ _ _)

/-- Settles O12: of the outcomes of an execute phase only the two stack faults are faults, and none is
a refusal. -/
theorem onlyCallAndReturnFaultInTheExecutePhase :
    Obligations.OnlyCallAndReturnFaultInTheExecutePhase := by
  unfold Obligations.OnlyCallAndReturnFaultInTheExecutePhase
  exact ⟨fun _ _ _ h => exec_fault h, exec_ne_refused, fun s r => cycle_ne_refused _ _ s r⟩

/-- Settles O13: without the two stack faults the one outcome left is a next state. -/
theorem executionCompletesUnlessTheStackFaults :
    Obligations.ExecutionCompletesUnlessTheStackFaults := by
  unfold Obligations.ExecutionCompletesUnlessTheStackFaults
  intro i s hret hcall
  obtain hnext | ⟨hi, hsp, -⟩ | ⟨nnn, hi, hsp, -⟩ := exec_outcome i s
  · exact hnext
  · exact absurd hsp (hret hi)
  · exact absurd hsp (hcall nnn hi)

/-- Settles O11: `pcF` is the address two below the `pc` of the execute phase. -/
theorem stackBoundsAreFatal : Obligations.StackBoundsAreFatal := by
  unfold Obligations.StackBoundsAreFatal
  exact ⟨fun nnn s hfull => exec_call_full s nnn hfull, fun s hempty => exec_ret_empty s hempty⟩

end Sys2Proof.Machine
end

section
/-! The step: its phases and the faults it answers with (spec 20_memory.md §4, 60_exceptions.md §1
and §2, 70_reset_and_hazards.md §2). -/

namespace Sys2Proof.Machine

/-! ## The faults before the execute phase -/

theorem cycle_halted (dt : Nat) (rnd : Byte) {s : State} {f : Fault} (h : s.fault = some f) :
    cycle dt rnd s = .fault f := by
  simp only [cycle, h]

theorem cycle_pc_out_of_range (dt : Nat) (rnd : Byte) {s : State} (hf : s.fault = none)
    (hpc : 0xFFE < s.pc.toNat) : cycle dt rnd s = .fault (.programCounterOutOfRange s.pc) := by
  simp only [cycle, hf, fetch_eq, if_neg (Nat.not_le.mpr hpc)]

theorem cycle_undecoded (dt : Nat) (rnd : Byte) {s : State} (hf : s.fault = none)
    (hpc : s.pc.toNat ≤ 0xFFE) (hd : ∀ i, decode (s.mem.wordAt s.pc) ≠ .ok i) :
    cycle dt rnd s = .fault (.invalidOpcode (s.mem.wordAt s.pc) s.pc) := by
  rcases he : decode (s.mem.wordAt s.pc) with e | i
  · simp only [cycle, hf, fetch_eq, hpc, if_true, he]
  · exact absurd he (hd i)

/-- Settles O9: a fetch in range hands its word to the decoder, and what the decoder rejects is
reported with that word and the `pc` it was fetched from (R112). -/
theorem invalidOpcodeFaultsWithWordAndFetchAddress :
    Obligations.InvalidOpcodeFaultsWithWordAndFetchAddress := by
  unfold Obligations.InvalidOpcodeFaultsWithWordAndFetchAddress
  exact fun dt rnd _ hf hpc hd => cycle_undecoded dt rnd hf hpc hd

/-- Settles O10: the fetch check raises the fault (R113), and the two faults of an execute phase are
both the stack's. -/
theorem outOfRangePcFaultsAtTheFetchOnly : Obligations.OutOfRangePcFaultsAtTheFetchOnly := by
  unfold Obligations.OutOfRangePcFaultsAtTheFetchOnly
  refine ⟨fun dt rnd _ hf hpc => cycle_pc_out_of_range dt rnd hf hpc, fun i s p h => ?_⟩
  obtain ⟨-, -, hf⟩ | ⟨nnn, -, -, hf⟩ := exec_fault h <;> cases hf

/-- Settles O6: the phases of a step that gets as far as its execute phase (R141). -/
theorem stepRunsTheDecodedInstruction : Obligations.StepRunsTheDecodedInstruction := by
  unfold Obligations.StepRunsTheDecodedInstruction
  refine fun s i hf hpc hd => ⟨fun dt rnd => ?_, rfl⟩
  have hc := cycle_decoded dt rnd s i hf hpc hd
  exact ⟨s.enter_pc rnd, hc, fun t hx => by rw [hc, hx, finish]⟩

/-! ## Fetch -/

/-- An in-range `pc` is the 12-bit address of the byte fetched first (R47). -/
theorem fetchAddr_eq (pc : Word) : fetchAddr pc = BitVec.ofNat 12 pc.toNat := by
  simp [fetchAddr, BitVec.ofNat_toNat]

theorem Word.succ_toNat {pc : Word} (h : pc.toNat ≤ 0xFFE) : (pc + 1).toNat = pc.toNat + 1 := by
  have h1 : (1 : Word).toNat = 1 := rfl
  rw [BitVec.toNat_add, h1]
  omega

theorem Word.add_two_toNat {pc : Word} (h : pc.toNat ≤ 0x1000) :
    (pc + 2).toNat = pc.toNat + 2 := by
  have h2 : (2 : Word).toNat = 2 := rfl
  rw [BitVec.toNat_add, h2]
  omega

/-- The word at an in-range `pc`, in the bytes at `pc` and `pc + 1` (R45). -/
theorem Memory.wordAt_toNat (m : Memory) {pc : Word} (h : pc.toNat ≤ 0xFFE) :
    (m.wordAt pc).toNat = (m.read (BitVec.ofNat 12 pc.toNat)).toNat * 256 +
      (m.read (BitVec.ofNat 12 (pc.toNat + 1))).toNat := by
  rw [Memory.wordAt, wordOfBytes_toNat, fetchAddr_eq, fetchAddr_eq, Word.succ_toNat h]

/-- Settles O8: the check is the one comparison of `pc` with 0xFFE, the word is big-endian, and an
in-range `pc` is far from wrapping when 2 is added (R47). -/
theorem fetchIsBigEndianAndChecked : Obligations.FetchIsBigEndianAndChecked := by
  unfold Obligations.FetchIsBigEndianAndChecked
  refine fun s rnd => ⟨fun hpc => ?_,
    fun hpc => ⟨s.mem.wordAt s.pc, ?_, s.mem.wordAt_toNat hpc, ?_⟩⟩
  · rw [fetch_eq, if_neg (Nat.not_le.mpr hpc)]
  · rw [fetch_eq, if_pos hpc]
  · rw [State.enter_pc, Word.add_two_toNat (by omega)]

/-! ## A placed word -/

theorem decode_tableWord {nbits w : Nat} {i : Instr} (h : decodeTableWord nbits w = some i) :
    decode (tableWord nbits w) = .ok i := by
  rcases hd : decode (tableWord nbits w) with e | j <;>
    simp only [decodeTableWord, bytesOfWord, decodeBytes, wordOfBytes_bytes, hd] at h <;> cases h
  rfl

theorem State.placeAtPc_pc_le (s : State) (w : Word) : (s.placeAtPc w).pc.toNat ≤ 0xFFE := by
  unfold State.placeAtPc
  split
  · show (0x200 : Word).toNat ≤ 0xFFE
    decide
  · next h =>
    simp only [gt_iff_lt, BitVec.lt_def, Nat.not_lt] at h
    exact h

theorem State.placeAtPc_wordAt {s : State} (w : Word) (hm : s.mem.wf) :
    (s.placeAtPc w).mem.wordAt (s.placeAtPc w).pc = w :=
  Memory.wordAt_placeWord hm _ w

/-- Settles O7: the placed state has no fault, its `pc` is in range and the word there is the placed
one, so its step gets as far as the execute phase. -/
theorem placedWordIsRunNext : Obligations.PlacedWordIsRunNext := by
  unfold Obligations.PlacedWordIsRunNext
  intro s nbits w i hm hd
  refine cycle_decoded _ _ _ i rfl (s.placeAtPc_pc_le _) ?_
  rw [State.withFetchWord, State.placeAtPc_wordAt _ hm, decode_tableWord hd]

/-! ## What a fault leaves -/

/-- Taking a fault writes the record alone (R119). -/
theorem State.takeFault_frame (s : State) (f : Fault) :
    UnchangedOutside (· = .fault) s (s.takeFault f) := by
  intro p hp
  cases p with
  | fault => exact absurd rfl hp
  | _ => rfl

theorem hostStep_faulted {dt : Nat} {rnd : Byte} {s t : State} {f : Fault}
    (h : hostStep dt rnd s = (t, .faulted f)) : t = s.takeFault f := by
  unfold hostStep at h
  rcases hc : cycle dt rnd s with u | g | r <;> rw [hc] at h <;> cases h
  rfl

/-- Settles O15: a step that faults leaves `takeFault` of the state before it. -/
theorem faultingStepWritesOnlyTheRecord : Obligations.FaultingStepWritesOnlyTheRecord := by
  unfold Obligations.FaultingStepWritesOnlyTheRecord
  intro dt rnd s t f h
  obtain rfl := hostStep_faulted h
  exact ⟨s.takeFault_fault f, s.takeFault_frame f, s.takeFault_stack f, s.takeFault_mem f⟩

/-- A step on a halted machine records the same fault again (R120). -/
theorem hostStep_halted (dt : Nat) (rnd : Byte) {s : State} {f : Fault} (h : s.fault = some f) :
    hostStep dt rnd s = (s, .faulted f) := by
  have hsame : s.takeFault f = s := by
    unfold State.takeFault
    rw [← h]
  rw [hostStep, cycle_halted dt rnd h, settle, hsame]

/-- No host operation but reset clears or changes a fault record (R120, R136). -/
theorem HostOp.run_keeps_fault {o : HostOp} {s : State} {f : Fault} (hreset : o ≠ .reset)
    (h : s.fault = some f) : (o.run s).1.fault = some f := by
  cases o with
  | reset => exact absurd rfl hreset
  | step dt rnd =>
    have hstep : (HostOp.step dt rnd).run s = _ := hostStep_halted dt rnd h
    rw [hstep, h]
  | load bytes =>
    simp only [HostOp.run]
    split <;> exact h
  | setKeys | readDisplay | clearRedraw | readSound | readFault => exact h

/-- Settles O14: the record is looked at before anything else (R117), so a halted machine answers it
and changes nothing. -/
theorem haltedMachineStaysHalted : Obligations.HaltedMachineStaysHalted := by
  unfold Obligations.HaltedMachineStaysHalted
  exact fun s f h => ⟨cycle_halted _ _ h, fun dt rnd => hostStep_halted dt rnd h,
    fun _ hreset => HostOp.run_keeps_fault hreset h⟩

end Sys2Proof.Machine
end

section
/-! The sprite of `Dxyn` cell by cell, in the words of the statements (spec 43_display.md R100 to
R103). -/

namespace Sys2Proof.Machine

theorem spriteLit_of_row_lt (f : Nat → Byte) (n cx : Nat) {cy row : Nat} (col : Nat)
    (h : row < cy) : spriteLit f n cx cy col row = false := by
  have : ¬ cy ≤ row := by omega
  simp [spriteLit, this]

theorem rowBit_eq (cx row : Nat) (b : Byte) (col r : Nat) :
    rowBit cx row b col r =
      (decide (cx ≤ col ∧ col < cx + 8 ∧ row = r ∧ col ≤ 63 ∧ r ≤ 31) &&
        b.getLsbD (7 - (col - cx))) := by
  rw [Bool.eq_iff_iff]
  simp only [rowBit, Bool.and_eq_true, decide_eq_true_eq]
  tauto

/-- The first row of a sprite, and the rest as a sprite one row further down. -/
theorem spriteLit_succ (f : Nat → Byte) (n cx cy col row : Nat) :
    spriteLit f (n + 1) cx cy col row =
      (rowBit cx cy (f 0) col row || spriteLit (fun r => f (r + 1)) n cx (cy + 1) col row) := by
  rw [rowBit_eq]
  rcases lt_trichotomy row cy with h | rfl | h
  · have hne : cy ≠ row := by omega
    rw [spriteLit_of_row_lt f _ cx col h, spriteLit_of_row_lt _ n cx col (by omega)]
    simp [hne]
  · rw [spriteLit_of_row_lt _ n cx col (Nat.lt_succ_self row), Bool.or_false, spriteLit,
      Nat.sub_self]
    congr 1
    exact decide_eq_decide.mpr (by omega)
  · have hne : cy ≠ row := by omega
    have hrow : row - (cy + 1) + 1 = row - cy := by omega
    simp only [hne, false_and, and_false, decide_false, Bool.false_and, Bool.false_or, spriteLit,
      hrow]
    congr 1
    exact decide_eq_decide.mpr (by omega)

/-- The bits of a list of row bytes are those of the bytes it lists (R100). -/
theorem spriteBit_map_range (f : Nat → Byte) (n cx cy col row : Nat) :
    spriteBit cx cy ((List.range n).map f) col row = spriteLit f n cx cy col row := by
  induction n generalizing f cy with
  | zero =>
    rw [spriteLit, decide_eq_false (by omega), Bool.false_and]
    rfl
  | succ n ih =>
    rw [List.range_succ_eq_map, List.map_cons, List.map_map, spriteBit, spriteLit_succ]
    congr 1
    exact ih (fun r => f (r + 1)) (cy + 1)

/-- The display that `Dxyn` leaves: each cell XOR the sprite's bit for it (R100). -/
theorem State.blit_get (s : State) (cx cy n col row : Nat) :
    (s.pix.blit cx cy (s.bytesFrom s.I n)).pix.get col row =
      (s.pix.get col row ^^ spriteLit s.spriteByte n cx cy col row) := by
  rw [Display.blit, Blit.rows_get]
  congr 1
  exact spriteBit_map_range s.spriteByte n cx cy col row

/-- The collision of `Dxyn`: some lit cell has its bit set (R103). -/
theorem State.blit_hit (s : State) (cx cy n : Nat) :
    (s.pix.blit cx cy (s.bytesFrom s.I n)).hit = true ↔
      ∃ col row, s.pix.get col row = true ∧ spriteLit s.spriteByte n cx cy col row = true := by
  have hbit : ∀ col row, spriteBit cx cy (s.bytesFrom s.I n) col row =
      spriteLit s.spriteByte n cx cy col row := spriteBit_map_range s.spriteByte n cx cy
  rw [Display.blit, Blit.rows_hit, or_iff_right Bool.false_ne_true]
  simp only [hbit, and_comm]

end Sys2Proof.Machine
end

section
/-! The frames: what an execute phase and a whole step leave unchanged (spec 00_scope.md R15,
10_state.md R35). -/

namespace Sys2Proof.Machine

/-! ## The frames of the other shared operations -/

theorem State.setI_frame (s : State) (a : Addr) : UnchangedOutside (· = .index) s (s.setI a) := by
  intro p hp
  cases p with
  | index => exact absurd rfl hp
  | _ => rfl

theorem State.rewind_frame (s : State) : UnchangedOutside (· = .pc) s s.rewind :=
  s.jump_frame (s.pc - 2)

theorem State.setDT_frame (s : State) (v : Byte) : UnchangedOutside (· = .delay) s (s.setDT v) := by
  intro p hp
  cases p with
  | delay => exact absurd rfl hp
  | _ => rfl

theorem State.setST_frame (s : State) (v : Byte) : UnchangedOutside (· = .sound) s (s.setST v) := by
  intro p hp
  cases p with
  | sound => exact absurd rfl hp
  | _ => rfl

theorem State.loadRegs_frame (s : State) (x : Reg) :
    UnchangedOutside (fun p => ∃ k : Reg, k ≤ x ∧ p = .reg k) s (s.loadRegs x) := by
  intro p hp
  cases p with
  | reg q =>
    show (s.loadRegs x).reg q = s.reg q
    rw [State.reg_loadRegs, if_neg fun hq => hp ⟨q, hq, rfl⟩]
  | _ => simp [StatePart.same]

theorem State.push_frame (s : State) (h : s.sp.val < 16) :
    UnchangedOutside (fun p => p = .sp ∨ ∃ j : Fin 16, j.val = s.sp.val ∧ p = .entry j) s
      (s.push h) := by
  intro p hp
  cases p with
  | sp => exact absurd (.inl rfl) hp
  | entry j =>
    show (s.push h).stack.get j = s.stack.get j
    rw [State.push_entry, if_neg fun hj => hp (.inr ⟨j, hj, rfl⟩)]
  | _ => rfl

theorem State.pop_frame (s : State) (h : 0 < s.sp.val) :
    UnchangedOutside (fun p => p = .pc ∨ p = .sp) s (s.pop h) := by
  intro p hp
  cases p with
  | pc => exact absurd (.inl rfl) hp
  | sp => exact absurd (.inr rfl) hp
  | _ => rfl

theorem State.clearDisplay_frame (s : State) :
    UnchangedOutside (fun p => p = .redraw ∨ ∃ col row, p = .cell col row) s s.clearDisplay := by
  intro p hp
  cases p with
  | redraw => exact absurd (.inl rfl) hp
  | cell col row => exact absurd (.inr ⟨col, row, rfl⟩) hp
  | _ => rfl

/-- The end of a blit writes `RF`, the redraw flag and the cells that the blit changed (R100). -/
theorem State.endBlit_frame (s : State) (z : Blit) :
    UnchangedOutside (fun p => p = .reg RF ∨ p = .redraw ∨
      ∃ col row, p = .cell col row ∧ z.pix.get col row ≠ s.pix.get col row) s (s.endBlit z) := by
  intro p hp
  cases p with
  | reg q =>
    show (s.endBlit z).reg q = s.reg q
    rw [State.reg_endBlit, if_neg fun hq => hp (.inl (by rw [hq]))]
  | redraw => exact absurd (.inr (.inl rfl)) hp
  | cell col row => exact not_not.mp fun hne => hp (.inr (.inr ⟨col, row, rfl, hne⟩))
  | _ => rfl

theorem State.enter_frame (s : State) (rnd : Byte) :
    UnchangedOutside stepWrites s (s.enter rnd) := by
  intro p hp
  cases p with
  | pc | rnd | stepNo => exact absurd (by simp [stepWrites]) hp
  | _ => rfl

/-- The timer update writes the two timers and their accumulator (R126). -/
theorem State.timerUpdate_frame (s : State) (dt : Nat) :
    UnchangedOutside (fun p => p = .delay ∨ p = .sound ∨ p = .tickAcc) s (s.timerUpdate dt) := by
  intro p hp
  cases p with
  | delay | sound | tickAcc => exact absurd (by simp) hp
  | _ => rfl

/-! ## The frame of an execute phase -/

/-- Every execute phase keeps what its rule does not name: the case split over the instructions, each
by the frame of the shared operation its meaning is. -/
theorem exec_frame {i : Instr} {s t : State} (hm : s.mem.wf) (h : exec i s = .next t) :
    UnchangedOutside (mayWrite i s) s t := by
  cases i with
  | cls => cases h; exact s.clearDisplay_frame
  | ret =>
    obtain ⟨hpos, rfl⟩ := exec_ret_next h
    exact s.pop_frame hpos
  | call nnn =>
    obtain ⟨hroom, rfl⟩ := exec_call_next h
    exact ((s.push_frame hroom).mono fun _ => .inr).trans
      ((State.jump_frame _ _).mono fun _ => .inl)
  | jp | jpR0 => cases h; exact s.jump_frame _
  | seImm | seReg => cases h; exact (s.skipIf_frame _).mono fun _ hc => hc.imp_left eq_of_beq
  | sneImm | sneReg => cases h; exact (s.skipIf_frame _).mono fun _ hc => hc.imp_left bne_iff_ne.mp
  | skp => cases h; exact s.skipIf_frame _
  | sknp => cases h; exact (s.skipIf_frame _).mono fun _ hc => hc.imp_left Bool.eq_false_of_not_eq_true'
  | ldImm | addImm | rnd | ldRDt | ldReg | or | and | xor => cases h; exact s.setReg_frame _ _
  | addReg | sub | subn => cases h; exact s.setRegThenFlag_frame _ _ _
  | shr | shl => cases h; exact s.setFlagThenReg_frame _ _ _
  | ldI | addI | ldF => cases h; exact s.setI_frame _
  | drw x y n =>
    cases h
    refine (s.endBlit_frame _).mono fun p => Or.imp_right (Or.imp_right ?_)
    rintro ⟨col, row, rfl, hne⟩
    rw [State.blit_get] at hne
    exact ⟨col, row, rfl, eq_true_of_ne_false fun hoff => hne (by rw [hoff, Bool.xor_false])⟩
  | ldRK x =>
    obtain ⟨hno, rfl⟩ | ⟨k, hk, rfl⟩ := exec_ldRK_next h
    · exact s.rewind_frame.mono fun _ hp => .inl ⟨hno, hp⟩
    · have hkeys : s.keys ≠ 0 := fun hno => by simp [(lowestKey_none _).mpr hno] at hk
      exact (s.setReg_frame x _).mono fun _ hp => .inr ⟨hkeys, hp⟩
  | ldDt => cases h; exact s.setDT_frame _
  | ldSt => cases h; exact s.setST_frame _
  | ldB x => cases h; exact s.storeAtI_frame (bcd (s.reg x)) hm
  | stRegs x =>
    cases h
    refine ((s.storeAtI_frame _ hm).mono ?_).trans ((State.setI_frame _ _).mono fun _ => .inl)
    rintro p ⟨k, hk, rfl⟩
    rw [State.regsUpTo_length] at hk
    exact .inr ⟨k, Nat.le_of_lt_succ hk, rfl⟩
  | ldRegs x =>
    obtain rfl := exec_ldRegs_next h
    exact ((s.loadRegs_frame x).mono fun _ => .inr).trans ((State.setI_frame _ _).mono fun _ => .inl)

/-- Settles O16: the frame of each execute phase is that of the shared operations it is made of. -/
theorem executionWritesOnlyItsOwnParts : Obligations.ExecutionWritesOnlyItsOwnParts := by
  unfold Obligations.ExecutionWritesOnlyItsOwnParts
  exact fun _ _ _ hm h => exec_frame hm h

/-- Settles O17: a step with a next state is the fetch, the execute phase of the decoded instruction
and the timer update (R141), and the frames of the three compose. -/
theorem stepWritesOnlyItsOwnParts : Obligations.StepWritesOnlyItsOwnParts := by
  unfold Obligations.StepWritesOnlyItsOwnParts
  intro dt rnd s t hm h
  obtain ⟨i, u, -, -, hd, hx, rfl⟩ := cycle_next h
  refine ⟨i, hd, (((s.enter_frame rnd).mono fun _ => .inr).trans
    ((exec_frame (s := s.enter rnd) hm hx).mono fun _ => .inl)).trans
    ((u.timerUpdate_frame dt).mono ?_)⟩
  rintro p (rfl | rfl | rfl) <;> simp [stepWrites]

end Sys2Proof.Machine
end

section
/-! The invariant: reset, every step and every host operation (spec 10_state.md R36, §13). -/

namespace Sys2Proof.Machine

/-! ## What an execute phase keeps -/

/-- The parameters, the accumulator and the latched draw: fields that no execute phase writes. -/
theorem exec_cfg_tickAcc_rnd {i : Instr} {s t : State} (h : exec i s = .next t) :
    t.cfg = s.cfg ∧ t.tickAcc = s.tickAcc ∧ t.rnd = s.rnd := by
  cases i with
  | ret => obtain ⟨hpos, rfl⟩ := exec_ret_next h; exact ⟨rfl, rfl, rfl⟩
  | call nnn => obtain ⟨hroom, rfl⟩ := exec_call_next h; exact ⟨rfl, rfl, rfl⟩
  | ldRK x => obtain ⟨-, rfl⟩ | ⟨k, -, rfl⟩ := exec_ldRK_next h <;> exact ⟨rfl, rfl, rfl⟩
  | ldRegs x => obtain rfl := exec_ldRegs_next h; simp
  | seImm | sneImm | seReg | sneReg | skp | sknp => cases h; simp
  | _ => cases h; exact ⟨rfl, rfl, rfl⟩

/-- Memory changes only by a block store at `I` (R94, R95). -/
theorem exec_mem {i : Instr} {s t : State} (h : exec i s = .next t) :
    t.mem = s.mem ∨ ∃ vs, t.mem = s.mem.writeBlock s.I 0 vs := by
  cases i with
  | ret => obtain ⟨hpos, rfl⟩ := exec_ret_next h; exact .inl rfl
  | call nnn => obtain ⟨hroom, rfl⟩ := exec_call_next h; exact .inl rfl
  | ldRK x => obtain ⟨-, rfl⟩ | ⟨k, -, rfl⟩ := exec_ldRK_next h <;> exact .inl rfl
  | ldRegs x => obtain rfl := exec_ldRegs_next h; exact .inl (by simp)
  | seImm | sneImm | seReg | sneReg | skp | sknp => cases h; exact .inl (s.skipIf_mem _)
  | ldB | stRegs => cases h; exact .inr ⟨_, rfl⟩
  | _ => cases h; exact .inl rfl

theorem exec_mem_wf {i : Instr} {s t : State} (hm : s.mem.wf) (h : exec i s = .next t) :
    t.mem.wf := by
  obtain hmem | ⟨vs, hmem⟩ := exec_mem h
  · exact hmem ▸ hm
  · exact hmem ▸ Memory.writeBlock_wf s.I 0 vs hm

/-- The stack changes only by a call, which pushes the `pc` of the execute phase (R71). -/
theorem exec_entry {i : Instr} {s t : State} (h : exec i s = .next t) (j : Fin 16) :
    t.stack.get j = s.stack.get j ∨ t.stack.get j = s.pc := by
  cases i with
  | ret => obtain ⟨hpos, rfl⟩ := exec_ret_next h; exact .inl rfl
  | call nnn =>
    obtain ⟨hroom, rfl⟩ := exec_call_next h
    rw [State.jump_stack, State.push_entry]
    split
    · exact .inr rfl
    · exact .inl rfl
  | ldRK x => obtain ⟨-, rfl⟩ | ⟨k, -, rfl⟩ := exec_ldRK_next h <;> exact .inl rfl
  | ldRegs x => obtain rfl := exec_ldRegs_next h; exact .inl (by simp)
  | seImm | sneImm | seReg | sneReg | skp | sknp => cases h; exact .inl (by rw [State.skipIf_stack])
  | _ => cases h; exact .inl rfl

/-! ## The bound on `pc` -/

theorem Word.sub_two_toNat_le {pc : Word} (h : 2 ≤ pc.toNat) : (pc - 2).toNat ≤ pc.toNat := by
  have h2 : (2 : Word).toNat = 2 := rfl
  have := pc.isLt
  rw [BitVec.toNat_sub, h2]
  omega

theorem State.skipIf_pc_le (s : State) (c : Bool) (h : s.pc.toNat ≤ 0x1000) :
    (s.skipIf c).pc.toNat ≤ 0x1002 := by
  have h2 := Word.add_two_toNat h
  rw [State.skipIf_pc]
  split <;> omega

/-- From a `pc` that a fetch has just advanced, no execute phase takes `pc` past 0x10FE: a jump goes to
a 12-bit address, `Bnnn` at most 0xFF beyond, a skip 2 further, and a return to an address a call has
pushed (R36). -/
theorem exec_pc_le {i : Instr} {s t : State} (hlow : 2 ≤ s.pc.toNat) (hpc : s.pc.toNat ≤ 0x1000)
    (hstack : ∀ j : Fin 16, (s.stack.get j).toNat ≤ 0x1000) (h : exec i s = .next t) :
    t.pc.toNat ≤ 0x10FE := by
  cases i with
  | ret =>
    obtain ⟨hpos, rfl⟩ := exec_ret_next h
    have hj : s.sp.val - 1 < 16 := by omega
    rw [State.pop_pc, s.top_eq hpos ⟨s.sp.val - 1, hj⟩ (Nat.sub_add_cancel hpos)]
    exact (hstack _).trans (by decide)
  | call nnn =>
    obtain ⟨hroom, rfl⟩ := exec_call_next h
    have := nnn.isLt
    rw [State.jump_pc, zext16_toNat]
    omega
  | jp nnn =>
    cases h
    have := nnn.isLt
    rw [State.jump_pc, zext16_toNat]
    omega
  | jpR0 nnn =>
    cases h
    have := nnn.isLt
    have := (s.reg R0).isLt
    rw [State.jump_pc, jumpPlus_toNat]
    omega
  | ldRK x =>
    obtain ⟨-, rfl⟩ | ⟨k, -, rfl⟩ := exec_ldRK_next h
    · have := Word.sub_two_toNat_le hlow
      rw [State.rewind_pc]
      omega
    · exact hpc.trans (by decide)
  | ldRegs x =>
    obtain rfl := exec_ldRegs_next h
    rw [State.setI_pc, State.loadRegs_pc]
    exact hpc.trans (by decide)
  | seImm | sneImm | seReg | sneReg | skp | sknp =>
    cases h
    exact (s.skipIf_pc_le _ hpc).trans (by decide)
  | _ =>
    cases h
    exact hpc.trans (by decide)

/-! ## Steps and host operations -/

/-- Every cycle keeps the invariant, whatever its inputs. The `pc` of the execute phase lies between 2
and 0x1000, because the fetch was in range. -/
theorem cycle_keeps_inv {dt : Nat} {rnd : Byte} {s t : State} (hs : s.Inv)
    (h : cycle dt rnd s = .next t) : t.Inv := by
  obtain ⟨i, u, -, hfetch, -, hx, rfl⟩ := cycle_next h
  have hpc : (s.enter rnd).pc.toNat = s.pc.toNat + 2 := by
    rw [State.enter_pc, Word.add_two_toNat (by omega)]
  have hcfg : u.cfg = s.cfg := (exec_cfg_tickAcc_rnd hx).1
  exact {
    memoryCanonical := exec_mem_wf (s := s.enter rnd) (t := u) hs.memoryCanonical hx
    pcBound := exec_pc_le (s := s.enter rnd) (t := u) (by omega) (by omega) hs.stackBound hx
    stackBound := fun j => by
      rw [State.timerUpdate_stack]
      rcases exec_entry hx j with hj | hj
      · exact hj ▸ hs.stackBound j
      · rw [hj]
        omega
    tickUnitsPositive := by
      rw [State.timerUpdate_cfg, hcfg]
      exact hs.tickUnitsPositive
    tickAccBound := by
      rw [State.timerUpdate_cfg, State.timerUpdate_tickAcc, hcfg]
      exact Nat.mod_lt _ hs.tickUnitsPositive }

/-- Settles O58: a step is a cycle on its free inputs, and every cycle keeps the invariant. -/
theorem stepKeepsTheInvariant : Obligations.StepKeepsTheInvariant := by
  unfold Obligations.StepKeepsTheInvariant
  exact fun _ _ hs h => cycle_keeps_inv hs h

theorem reset_inv (c : Config) (n : Nat) (hc : 1 ≤ c.tickUnits) :
    ({ State.reset with cfg := c, stepNo := n } : State).Inv where
  memoryCanonical := ⟨List.Pairwise.nil, fun _ h => absurd h List.not_mem_nil⟩
  pcBound := by show (0x200 : Word).toNat ≤ 0x10FE; decide
  stackBound := fun j => by
    show ((Vector.replicate 16 (0x0000 : Word)).get j).toNat ≤ 0x1000
    rw [Vector.get_eq_getElem, Vector.getElem_replicate]
    decide
  tickUnitsPositive := hc
  tickAccBound := hc

/-- Settles O57: at reset memory lists nothing, the stack and `tick_acc` are zero, and
`TICK_UNITS`, where the spec leaves it free, is at least 1 (R7). -/
theorem resetMeetsTheInvariant : Obligations.ResetMeetsTheInvariant := by
  unfold Obligations.ResetMeetsTheInvariant
  exact ⟨reset_inv Config.reset 0 (Nat.le_add_left 1 _), fun c hc => reset_inv c 0 hc⟩

/-- The invariant speaks of no part that a fault record, a key write or a redraw clear changes. -/
theorem State.Inv.congr {s t : State} (hs : s.Inv) (hm : t.mem = s.mem) (hpc : t.pc = s.pc)
    (hst : t.stack = s.stack) (hc : t.cfg = s.cfg) (ht : t.tickAcc = s.tickAcc) : t.Inv where
  memoryCanonical := hm ▸ hs.memoryCanonical
  pcBound := hpc ▸ hs.pcBound
  stackBound := hst ▸ hs.stackBound
  tickUnitsPositive := hc ▸ hs.tickUnitsPositive
  tickAccBound := by rw [ht, hc]; exact hs.tickAccBound

theorem State.hostLoad_inv {s : State} (bytes : List Byte) (hs : s.Inv) : (s.hostLoad bytes).Inv where
  memoryCanonical := Memory.writeBlock_wf _ _ _ hs.memoryCanonical
  pcBound := hs.pcBound
  stackBound := hs.stackBound
  tickUnitsPositive := hs.tickUnitsPositive
  tickAccBound := hs.tickAccBound

theorem hostStep_keeps_inv (dt : Nat) (rnd : Byte) {s : State} (hs : s.Inv) :
    (hostStep dt rnd s).1.Inv := by
  unfold hostStep
  rcases hc : cycle dt rnd s with t | f | r
  · exact cycle_keeps_inv hs hc
  · exact hs.congr rfl rfl rfl rfl rfl
  · exact hs

theorem HostOp.run_keeps_inv (o : HostOp) {s : State} (hs : s.Inv) : (o.run s).1.Inv := by
  cases o with
  | reset => exact reset_inv s.cfg s.stepNo hs.tickUnitsPositive
  | load bytes =>
    simp only [HostOp.run]
    split
    · exact hs
    · exact State.hostLoad_inv bytes hs
  | step dt rnd => exact hostStep_keeps_inv dt rnd hs
  | setKeys | clearRedraw => exact hs.congr rfl rfl rfl rfl rfl
  | readDisplay | readSound | readFault => exact hs

theorem session_keeps_inv (os : List HostOp) {s : State} (hs : s.Inv) : (session os s).Inv := by
  induction os generalizing s with
  | nil => exact hs
  | cons o os ih => exact ih (o.run_keeps_inv hs)

/-- Settles O59: reset meets the invariant and every host operation keeps it. -/
theorem reachableStatesMeetTheInvariant : Obligations.ReachableStatesMeetTheInvariant := by
  unfold Obligations.ReachableStatesMeetTheInvariant
  rintro t ⟨c, os, hc, rfl⟩
  exact session_keeps_inv os (reset_inv c 0 hc)

end Sys2Proof.Machine
end

section
/-! The control family: jumps, calls, returns and skips (spec 40_control.md). -/

namespace Sys2Proof.Machine

/-- Settles O19: `jumpPlus` is a 16-bit sum of 12 bits and 8, so it does not wrap (R76). -/
theorem jumpPlusR0IsNotReduced : Obligations.JumpPlusR0IsNotReduced := by
  unfold Obligations.JumpPlusR0IsNotReduced
  exact fun nnn s => ⟨_, exec_jpR0 s nnn, jumpPlus_toNat nnn (s.reg R0)⟩

/-- Settles O20: with room on the stack `2nnn` is a push of `pc` and a jump (R71). -/
theorem callPushesTheReturnAddress : Obligations.CallPushesTheReturnAddress := by
  unfold Obligations.CallPushesTheReturnAddress
  exact fun nnn s hroom => ⟨_, exec_call_push s nnn hroom, zext16_toNat nnn, rfl, s.push_entry hroom⟩

/-- Settles O21: on a stack that is not empty `00EE` is a pop, which reads the entry below `sp` (R69). -/
theorem returnPopsIntoPc : Obligations.ReturnPopsIntoPc := by
  unfold Obligations.ReturnPopsIntoPc
  exact fun s hpos => ⟨s.pop hpos, exec_ret_pop s hpos, Nat.sub_add_cancel hpos, s.pop_stack hpos,
    fun j hj => s.top_eq hpos j hj⟩

/-- Settles O22: the call pushes the `pc` of its execute phase into the entry at the old `sp`, which is
the entry a return from the new `sp` reads. -/
theorem returnUndoesTheCall : Obligations.ReturnUndoesTheCall := by
  unfold Obligations.ReturnUndoesTheCall
  intro nnn s t u hcall hsp hstack
  obtain ⟨hroom, rfl⟩ := exec_call_next hcall
  have hu : u.sp.val = s.sp.val + 1 := congrArg Fin.val hsp
  have hpos : 0 < u.sp.val := by omega
  refine ⟨u.pop hpos, exec_ret_pop u hpos, ?_, Fin.ext ?_⟩
  · rw [State.pop_pc, u.top_eq hpos ⟨s.sp.val, hroom⟩ hu.symm, hstack, State.jump_stack,
      State.push_entry, if_pos rfl]
  · rw [State.pop_sp]
    show u.sp.val - 1 = s.sp.val
    omega

/-- A skip by the condition that its test decides. -/
theorem State.skipIf_pc_of_iff (s : State) {c : Bool} {P : Prop} [Decidable P] (h : c = true ↔ P) :
    (s.skipIf c).pc = if P then s.pc + 2 else s.pc := by
  rw [State.skipIf_pc, if_congr h rfl rfl]

/-- Settles O23: each of the four is one `State.skipIf`, and its test decides the condition. -/
theorem comparisonSkipsAddTwo : Obligations.ComparisonSkipsAddTwo := by
  unfold Obligations.ComparisonSkipsAddTwo
  exact fun x y kk s =>
    ⟨⟨_, exec_seImm s x kk, s.skipIf_R _, s.skipIf_pc_of_iff beq_iff_eq⟩,
      ⟨_, exec_sneImm s x kk, s.skipIf_R _, s.skipIf_pc_of_iff bne_iff_ne⟩,
      ⟨_, exec_seReg s x y, s.skipIf_R _, s.skipIf_pc_of_iff beq_iff_eq⟩,
      ⟨_, exec_sneReg s x y, s.skipIf_R _, s.skipIf_pc_of_iff bne_iff_ne⟩⟩

end Sys2Proof.Machine
end

section
/-! The register family: logic, arithmetic with a flag, shifts and the draw (spec 41_alu.md). -/

namespace Sys2Proof.Machine

/-! ## A result and a flag -/

theorem State.reg_RF_setRegThenFlag (s : State) (r : Reg) (v f : Byte) :
    (s.setRegThenFlag r v f).reg RF = f := by
  rw [State.reg_setRegThenFlag, if_pos rfl]

theorem State.reg_setRegThenFlag_same (s : State) {r : Reg} (v f : Byte) (h : r ≠ RF) :
    (s.setRegThenFlag r v f).reg r = v := by
  rw [State.reg_setRegThenFlag, if_neg h, if_pos rfl]

theorem State.reg_setFlagThenReg_same (s : State) (r : Reg) (v f : Byte) :
    (s.setFlagThenReg r v f).reg r = v := by
  rw [State.reg_setFlagThenReg, if_pos rfl]

theorem State.reg_RF_setFlagThenReg (s : State) {r : Reg} (v f : Byte) (h : r ≠ RF) :
    (s.setFlagThenReg r v f).reg RF = f := by
  rw [State.reg_setFlagThenReg, if_neg h.symm, if_pos rfl]

theorem flagByte_decide (P : Prop) [Decidable P] : flagByte (decide P) = if P then 1 else 0 := by
  by_cases h : P <;> simp [flagByte, h]

/-! ## The statements -/

/-- Settles O25: each of the three is one `State.setReg` of a bitwise result (R81 to R83). -/
theorem logicIsBitwiseWithoutFlag : Obligations.LogicIsBitwiseWithoutFlag := by
  unfold Obligations.LogicIsBitwiseWithoutFlag
  refine fun x y s => ⟨⟨_, exec_or s x y, s.reg_setReg_of_ne _, fun b _ => ?_⟩,
    ⟨_, exec_and s x y, s.reg_setReg_of_ne _, fun b _ => ?_⟩,
    ⟨_, exec_xor s x y, s.reg_setReg_of_ne _, fun b _ => ?_⟩⟩
  · rw [State.reg_setReg_same, BitVec.getLsbD_or]
  · rw [State.reg_setReg_same, BitVec.getLsbD_and]
  · rw [State.reg_setReg_same, BitVec.getLsbD_xor]

/-- Settles O26: the sum is written before its carry (R84), so the carry is what `RF` holds. -/
theorem addRegistersLeavesTheCarry : Obligations.AddRegistersLeavesTheCarry := by
  unfold Obligations.AddRegistersLeavesTheCarry
  refine fun x y s => ⟨_, exec_addReg s x y, fun hx => ?_, ?_⟩
  · rw [State.reg_setRegThenFlag_same _ _ _ hx, add8_toNat]
  · rw [State.reg_RF_setRegThenFlag, carry, flagByte_decide]

/-- Settles O27: each difference is written before its flag (R85, R87), so the flag is what `RF`
holds. -/
theorem subtractionsLeaveNoBorrow : Obligations.SubtractionsLeaveNoBorrow := by
  unfold Obligations.SubtractionsLeaveNoBorrow
  refine fun x y s => ⟨⟨_, exec_sub s x y, fun hx => ?_, ?_⟩, ⟨_, exec_subn s x y, fun hx => ?_, ?_⟩⟩
  · rw [State.reg_setRegThenFlag_same _ _ _ hx, sub8_toNat]
  · rw [State.reg_RF_setRegThenFlag, noBorrow, flagByte_decide]
  · rw [State.reg_setRegThenFlag_same _ _ _ hx, sub8_toNat]
  · rw [State.reg_RF_setRegThenFlag, noBorrow, flagByte_decide]

/-- Settles O28: both shifts take the one shift source, and the flag is written before the result (R86,
R88), so the result stays when `x` is `RF`. -/
theorem shiftsMoveTheirSourceByOne : Obligations.ShiftsMoveTheirSourceByOne := by
  unfold Obligations.ShiftsMoveTheirSourceByOne
  rintro x y s v rfl
  refine ⟨⟨_, exec_shr s x y _ rfl, ?_, fun hx => ?_⟩, ⟨_, exec_shl s x y _ rfl, ?_, fun hx => ?_⟩⟩
  · rw [State.reg_setFlagThenReg_same, shiftRight1_toNat, shiftSource]
  · rw [State.reg_RF_setFlagThenReg _ _ _ hx, shiftedOutRight_toNat, shiftSource]
  · rw [State.reg_setFlagThenReg_same, shiftLeft1_toNat, shiftSource]
  · rw [State.reg_RF_setFlagThenReg _ _ _ hx, shiftedOutLeft_toNat, shiftSource]

/-- Settles O29: `Cxkk` is one `State.setReg` of the latched draw AND the immediate (R89). -/
theorem randomIsTheDrawMasked : Obligations.RandomIsTheDrawMasked := by
  unfold Obligations.RandomIsTheDrawMasked
  refine fun x kk draw s => ⟨s.enter_rnd draw, _, exec_rnd s x kk, s.reg_setReg_same x _,
    s.reg_setReg_of_ne _, fun b hb => ?_⟩
  rw [State.reg_setReg_same, BitVec.getLsbD_and, hb, Bool.and_false]

end Sys2Proof.Machine
end

section
/-! The memory family: the index register, decimal digits, block transfers and the form of memory
(spec 20_memory.md, 42_index_memory.md). -/

namespace Sys2Proof.Machine

/-- Settles O31: `Fx1E` is one `State.setI` of an address reduced as every data address is (R92). -/
theorem addToIndexWrapsWithoutFlag : Obligations.AddToIndexWrapsWithoutFlag := by
  unfold Obligations.AddToIndexWrapsWithoutFlag
  exact fun x s => ⟨_, exec_addI s x, dataAddr_toNat s.I _, s.setI_R _⟩

/-! ## Bytes stored at `I` -/

theorem State.byte_storeAtI {s : State} (hm : s.mem.wf) {vs : List Byte} (hlen : vs.length ≤ 0x1000)
    (j : Nat) (hj : j < vs.length) : (s.storeAtI vs).byte (dataAddr s.I j) = vs[j] := by
  have h := Memory.read_writeBlock hm s.I 0 j vs hj (by omega)
  rwa [Nat.zero_add] at h

theorem State.byte_storeAtI_other {s : State} (hm : s.mem.wf) {vs : List Byte} {a : Addr}
    (ha : ∀ j < vs.length, a ≠ dataAddr s.I j) : (s.storeAtI vs).byte a = s.byte a :=
  Memory.read_writeBlock_other hm s.I a 0 vs fun j hj h => ha j hj (by rw [← h, Nat.zero_add])

@[simp] theorem bcd_length (v : Byte) : (bcd v).length = 3 := rfl

/-- Settles O32: the three digits are stored as a block of three bytes at `I` (R94), and each digit of
a byte fits a byte. -/
theorem bcdStoresThreeDigits : Obligations.BcdStoresThreeDigits := by
  unfold Obligations.BcdStoresThreeDigits
  refine fun x s => ⟨_, exec_ldB s x, s.storeAtI_I _, fun hm => ?_⟩
  have hx := (s.reg x).isLt
  have hdigit := s.byte_storeAtI hm (vs := bcd (s.reg x)) (by simp)
  refine ⟨?_, ?_, ?_, fun a ha => s.byte_storeAtI_other hm ha⟩
  · rw [show A12 s.I.toNat = dataAddr s.I 0 from rfl, hdigit 0 (by simp)]
    show (BitVec.ofNat 8 ((s.reg x).toNat / 100)).toNat = _
    rw [BitVec.toNat_ofNat]
    omega
  · rw [show A12 (s.I.toNat + 1) = dataAddr s.I 1 from rfl, hdigit 1 (by simp)]
    show (BitVec.ofNat 8 ((s.reg x).toNat / 10 % 10)).toNat = _
    rw [BitVec.toNat_ofNat]
    omega
  · rw [show A12 (s.I.toNat + 2) = dataAddr s.I 2 from rfl, hdigit 2 (by simp)]
    show (BitVec.ofNat 8 ((s.reg x).toNat % 10)).toNat = _
    rw [BitVec.toNat_ofNat]
    omega

/-! ## Block transfers -/

/-- Byte `k` of a block store of `R0..Rx` is `R[k]` (R95). -/
theorem State.byte_storeAtI_regsUpTo {s : State} (hm : s.mem.wf) {x k : Reg} (hk : k ≤ x) :
    (s.storeAtI (s.regsUpTo x)).byte (dataAddr s.I k.val) = s.reg k := by
  have hx := x.isLt
  have hlen := s.regsUpTo_length x
  have hkx : k.val ≤ x.val := hk
  rw [s.byte_storeAtI hm (by omega) k.val (by omega), State.regsUpTo_getElem]

/-- The address after a block of `R0..Rx` (R95, R96). -/
theorem dataAddr_succ_toNat (base : Addr) (k : Nat) :
    (dataAddr base (k + 1)).toNat = (base.toNat + k + 1) % 0x1000 := by
  rw [dataAddr_toNat, Nat.add_assoc]

/-- Settles O33: a block store of `R0..Rx` at `I` and then the advance of `I` (R95). -/
theorem blockStoreCopiesRegisters : Obligations.BlockStoreCopiesRegisters := by
  unfold Obligations.BlockStoreCopiesRegisters
  refine fun x s => ⟨_, exec_stRegs s x, dataAddr_succ_toNat s.I x.val, rfl,
    fun hm => ⟨fun k hk => s.byte_storeAtI_regsUpTo hm hk, fun a ha => ?_⟩⟩
  refine s.byte_storeAtI_other hm fun j hj => ha j ?_
  rw [State.regsUpTo_length] at hj
  exact Nat.le_of_lt_succ hj

/-- Settles O34: `State.loadRegs` fills `R0..Rx` from the bytes at `I` and touches nothing else (R96). -/
theorem blockLoadFillsRegisters : Obligations.BlockLoadFillsRegisters := by
  unfold Obligations.BlockLoadFillsRegisters
  refine fun x s => ⟨_, exec_ldRegs s x, dataAddr_succ_toNat s.I x.val, ?_, fun k => ?_⟩
  · rw [State.setI_mem, State.loadRegs_mem]
  · rw [State.setI_reg, State.reg_loadRegs]
    rfl

/-- Settles O35: the load reads byte `k` of the block at the address where the store put `R[k]`. -/
theorem blockStoreThenLoadRoundTrips : Obligations.BlockStoreThenLoadRoundTrips := by
  unfold Obligations.BlockStoreThenLoadRoundTrips
  intro x s t u v hm hst hmem hI hld k hk
  obtain rfl := exec_ldRegs_next hld
  rw [exec_stRegs] at hst
  cases hst
  have hbyte := s.byte_storeAtI_regsUpTo hm hk
  rw [State.setI_reg, State.reg_loadRegs, if_pos hk, hI, State.byte, hmem]
  exact hbyte

/-- Settles O36: neighbouring offsets are neighbouring addresses, unless the block wraps between them,
where no fetch reads; so the fetch reads the two stored bytes, the first one high (R45, R53). -/
theorem storedBytesAreFetchedBigEndian : Obligations.StoredBytesAreFetchedBigEndian := by
  unfold Obligations.StoredBytesAreFetchedBigEndian
  intro x k j s t u hm hkj hjx hst hmem hpc hrange
  rw [exec_stRegs] at hst
  cases hst
  have hkx : k ≤ x := le_trans (Fin.le_def.mpr (by omega)) hjx
  have hread : ∀ {q : Reg}, q ≤ x → u.mem.read (dataAddr s.I q.val) = s.reg q := by
    intro q hq
    rw [hmem]
    exact s.byte_storeAtI_regsUpTo hm hq
  have hk : BitVec.ofNat 12 u.pc.toNat = dataAddr s.I k.val := by
    apply BitVec.eq_of_toNat_eq
    rw [BitVec.toNat_ofNat, dataAddr_toNat]
    omega
  have hj : BitVec.ofNat 12 (u.pc.toNat + 1) = dataAddr s.I j.val := by
    apply BitVec.eq_of_toNat_eq
    rw [BitVec.toNat_ofNat, dataAddr_toNat]
    omega
  refine ⟨u.mem.wordAt u.pc, by rw [fetch_eq, if_pos hrange], ?_⟩
  rw [Memory.wordAt_toNat _ hrange, hk, hj, hread hkx, hread hjx]

/-! ## The canonical form -/

theorem Memory.wf_tail {c : Host.Cell} {m : Memory} (h : Memory.wf (c :: m)) : m.wf :=
  ⟨(List.pairwise_cons.mp h.1).2, fun d hd => h.2 d (List.mem_cons_of_mem c hd)⟩

theorem Memory.lt_of_mem_tail {c d : Host.Cell} {m : Memory} (h : Memory.wf (c :: m)) (hd : d ∈ m) :
    c.1 < d.1 :=
  (List.pairwise_cons.mp h.1).1 d hd

theorem Memory.lookup_head (c : Host.Cell) (m : Memory) : Memory.lookup c.1 (c :: m) = c.2 :=
  if_pos rfl

/-- A memory whose cells all lie above a listed cell of another reads differently there. -/
theorem Memory.lookup_head_ne {c : Host.Cell} {m n : Memory} (h : Memory.wf (c :: m))
    (hlt : ∀ d ∈ n, c.1 < d.1) : Memory.lookup c.1 (c :: m) ≠ Memory.lookup c.1 n := by
  rw [Memory.lookup_head, Memory.lookup_of_lt c.1 n hlt]
  exact (h.2 c List.mem_cons_self).2

/-- Equal reads at every address make canonical memories the same list: the first cells must be at the
same address, and below the tails' cells both read as the reset contents. -/
theorem Memory.eq_of_lookup_eq {m n : Memory} (hm : m.wf) (hn : n.wf)
    (h : ∀ a < 0x1000, Memory.lookup a m = Memory.lookup a n) : m = n := by
  induction m generalizing n with
  | nil =>
    cases n with
    | nil => rfl
    | cons d n =>
      have hd := (hn.2 d List.mem_cons_self).1
      exact absurd (h d.1 hd).symm (Memory.lookup_head_ne hn nofun)
  | cons c m ih =>
    have hc := (hm.2 c List.mem_cons_self).1
    cases n with
    | nil => exact absurd (h c.1 hc) (Memory.lookup_head_ne hm nofun)
    | cons d n =>
      have hd := (hn.2 d List.mem_cons_self).1
      have habove : ∀ {e f : Host.Cell} {k : Memory}, Memory.wf (f :: k) → e.1 < f.1 →
          ∀ g ∈ f :: k, e.1 < g.1 := by
        intro e f k hk hlt g hg
        rcases List.mem_cons.mp hg with rfl | hg
        · exact hlt
        · exact hlt.trans (Memory.lt_of_mem_tail hk hg)
      rcases lt_trichotomy c.1 d.1 with hlt | heq | hlt
      · exact absurd (h c.1 hc) (Memory.lookup_head_ne hm (habove hn hlt))
      · have hv := h c.1 hc
        rw [Memory.lookup_head, heq, Memory.lookup_head] at hv
        obtain rfl : c = d := Prod.ext heq hv
        congr 1
        refine ih (Memory.wf_tail hm) (Memory.wf_tail hn) fun a ha => ?_
        by_cases hac : c.1 = a
        · subst hac
          rw [Memory.lookup_of_lt _ m fun _ => Memory.lt_of_mem_tail hm,
            Memory.lookup_of_lt _ n fun _ => Memory.lt_of_mem_tail hn]
        · simpa only [Memory.lookup, if_neg hac] using h a ha
      · exact absurd (h d.1 hd).symm (Memory.lookup_head_ne hn (habove hm hlt))

/-- Settles O37: a read of an address is a lookup of its number, and every number below 0x1000 is that
of an address. -/
theorem canonicalMemoryIsItsBytes : Obligations.CanonicalMemoryIsItsBytes := by
  unfold Obligations.CanonicalMemoryIsItsBytes
  refine fun m n hm hn h => Memory.eq_of_lookup_eq hm hn fun a ha => ?_
  have hread := h (A12 a)
  rwa [Memory.read, Memory.read, A12_toNat, Nat.mod_eq_of_lt ha] at hread

end Sys2Proof.Machine
end

section
/-! The display family: `Dxyn` cell by cell, clipping and drawing twice (spec 43_display.md). -/

namespace Sys2Proof.Machine

/-! ## The state that `Dxyn` leaves -/

/-- The next state of `Dxyn` (R100). -/
def State.drawn (s : State) (x y : Reg) (n : Nat) : State :=
  s.endBlit (s.pix.blit (s.reg x).toNat (s.reg y).toNat (s.bytesFrom s.I n))

section drawn
variable (s : State) (x y : Reg) (n : Nat)

theorem exec_drw_drawn : exec (.drw x y n) s = .next (s.drawn x y n) := exec_drw s x y n

theorem State.drawn_I : (s.drawn x y n).I = s.I := rfl

theorem State.drawn_spriteByte : (s.drawn x y n).spriteByte = s.spriteByte := rfl

theorem State.drawn_get (col row : Nat) : (s.drawn x y n).pix.get col row =
    (s.pix.get col row ^^ spriteLit s.spriteByte n (s.reg x).toNat (s.reg y).toNat col row) :=
  s.blit_get _ _ n col row

theorem State.drawn_RF_eq_one : (s.drawn x y n).reg RF = 1 ↔ ∃ col row, s.pix.get col row = true ∧
    spriteLit s.spriteByte n (s.reg x).toNat (s.reg y).toNat col row = true := by
  rw [State.drawn, State.reg_RF_endBlit, collision_eq_one_iff, State.blit_hit]

theorem State.drawn_RF_eq_zero : (s.drawn x y n).reg RF = 0 ↔ ∀ col row, s.pix.get col row = true →
    spriteLit s.spriteByte n (s.reg x).toNat (s.reg y).toNat col row = false := by
  have hflag : (s.drawn x y n).reg RF = 0 ↔ ¬ (s.drawn x y n).reg RF = 1 := by
    rw [State.drawn, State.reg_RF_endBlit]
    rcases collision_eq_one_or_zero (s.pix.blit (s.reg x).toNat (s.reg y).toNat
      (s.bytesFrom s.I n)).hit with h | h <;> rw [h] <;> decide
  rw [hflag, State.drawn_RF_eq_one]
  simp

/-- A draw changes a register only if it is `RF` (R100). -/
theorem State.drawn_reg {q : Reg} (h : q = RF → (s.drawn x y n).reg RF = s.reg RF) :
    (s.drawn x y n).reg q = s.reg q := by
  by_cases hq : q = RF
  · subst hq
    exact h rfl
  · rw [State.drawn, State.reg_endBlit, if_neg hq]

end drawn

/-! ## Where a sprite can have a lit cell -/

theorem spriteLit_bounds {f : Nat → Byte} {n cx cy col row : Nat}
    (h : spriteLit f n cx cy col row = true) :
    cx ≤ col ∧ cy ≤ row ∧ col ≤ 63 ∧ row ≤ 31 := by
  simp only [spriteLit, Bool.and_eq_true, decide_eq_true_eq] at h
  omega

/-- Settles O39: the blit is an XOR with the sprite, its collision is a lit cell with its bit set (R100,
R103), and `State.endBlit` writes that collision and the redraw flag. -/
theorem drawXorsTheSprite : Obligations.DrawXorsTheSprite := by
  unfold Obligations.DrawXorsTheSprite
  exact fun x y n s => ⟨_, exec_drw_drawn s x y n, s.drawn_get x y n, (s.drawn_RF_eq_one x y n).mpr,
    (s.drawn_RF_eq_zero x y n).mpr, rfl, s.drawn_I x y n⟩

/-- Settles O41: the sprite has bits only from its start to the edge of the grid (R102), so it has none
left of or above the start, and none at all when the start is outside. -/
theorem spritesAreClippedNotWrapped : Obligations.SpritesAreClippedNotWrapped := by
  unfold Obligations.SpritesAreClippedNotWrapped
  refine fun x y n s => ⟨_, exec_drw_drawn s x y n, fun col row hout => ?before, fun hflag => ?hit,
    fun hout => ?outside⟩
  case before =>
    have hdark := eq_false_of_ne_true fun h => by
      obtain ⟨hcol, hrow, -⟩ := spriteLit_bounds (f := s.spriteByte) (n := n) h
      exact hout.elim hcol.not_gt hrow.not_gt
    rw [State.drawn_get, hdark, Bool.xor_false]
  case hit =>
    obtain ⟨col, row, hlit, hbit⟩ := (s.drawn_RF_eq_one x y n).mp hflag
    obtain ⟨-, -, hcol, hrow⟩ := spriteLit_bounds hbit
    exact ⟨col, row, hcol, hrow, hlit, by rw [State.drawn_get, hlit, hbit, Bool.xor_self]⟩
  case outside =>
    have hdark : ∀ col row,
        spriteLit s.spriteByte n (s.reg x).toNat (s.reg y).toNat col row = false :=
      fun col row => eq_false_of_ne_true fun h => by
        have := spriteLit_bounds h
        omega
    refine ⟨Display.ext_get fun col row _ _ => ?_,
      (s.drawn_RF_eq_zero x y n).mpr fun col row _ => hdark col row⟩
    rw [State.drawn_get, hdark, Bool.xor_false]

/-- Settles O42: the second draw is of the same sprite at the same place, so its XOR undoes the first;
where the sprite's cells were dark, the first draw has lit exactly them, and the second hits each. -/
theorem drawingTwiceRestoresTheDisplay : Obligations.DrawingTwiceRestoresTheDisplay := by
  unfold Obligations.DrawingTwiceRestoresTheDisplay
  intro x y n s t u hcoord ht hu
  obtain rfl : t = s.drawn x y n := (Host.Outcome.next.inj ht).symm
  obtain rfl : u = (s.drawn x y n).drawn x y n := (Host.Outcome.next.inj hu).symm
  have hx : (s.drawn x y n).reg x = s.reg x := s.drawn_reg x y n fun h => hcoord (.inl h)
  have hy : (s.drawn x y n).reg y = s.reg y := s.drawn_reg x y n fun h => hcoord (.inr h)
  constructor
  · refine Display.ext_get fun col row _ _ => ?_
    rw [State.drawn_get, State.drawn_get, State.drawn_spriteByte, hx, hy, Bool.xor_assoc,
      Bool.xor_self, Bool.xor_false]
  · intro hdark
    rw [State.drawn_RF_eq_one, State.drawn_spriteByte, hx, hy]
    refine exists_congr fun col => exists_congr fun row => and_iff_right_of_imp fun hbit => ?_
    rw [State.drawn_get, hdark col row hbit, hbit, Bool.false_xor]

end Sys2Proof.Machine
end

section
/-! The key and timer family (spec 44_timer_input.md, 60_exceptions.md §4). -/

namespace Sys2Proof.Machine

/-! ## Keys -/

theorem keyDown_iff (keys : Word) (v : Byte) :
    keyDown keys v = true ↔ v.toNat ≤ 15 ∧ keys.getLsbD v.toNat = true := by
  rw [keyDown, Bool.and_eq_true, decide_eq_true_eq]

/-- Settles O44: `Ex9E` skips by `keyDown` and `ExA1` by its negation (R105, R106). -/
theorem keySkipsTestOneKey : Obligations.KeySkipsTestOneKey := by
  unfold Obligations.KeySkipsTestOneKey
  refine fun x s => ⟨_, _, exec_skp s x, exec_sknp s x, ?_⟩
  rw [← keyDown_iff]
  cases keyDown s.keys (s.reg x)
  · exact ⟨fun h => absurd h Bool.false_ne_true, fun _ => ⟨rfl, rfl⟩⟩
  · exact ⟨fun _ => ⟨rfl, rfl⟩, fun h => absurd rfl h⟩

/-- Settles O45: with no key down `Fx0A` is a rewind, and otherwise one `State.setReg` of the lowest key
(R108), whose index fits a byte. -/
theorem keyWaitRewindsOrTakesTheLowestKey : Obligations.KeyWaitRewindsOrTakesTheLowestKey := by
  unfold Obligations.KeyWaitRewindsOrTakesTheLowestKey
  intro x s
  obtain ⟨hno, hx⟩ | ⟨k, hk, hx⟩ := exec_ldRK_cases x s
  · exact ⟨_, hx, fun _ => ⟨s.rewind_pc, s.rewind_R⟩, fun h => absurd hno h⟩
  · obtain ⟨hlt, hdown, hlow⟩ := lowestKey_some hk
    have hkeys : s.keys ≠ 0 := fun hno => by simp [hno] at hdown
    have hval : ((s.setReg x (BitVec.ofNat 8 k)).reg x).toNat = k := by
      rw [State.reg_setReg_same, BitVec.toNat_ofNat]
      omega
    refine ⟨_, hx, fun h => absurd h hkeys, fun _ => ?_⟩
    rw [hval]
    exact ⟨rfl, hdown, hlt, hlow, fun r hr => s.reg_setReg_of_ne _ hr.symm⟩

/-! ## Timers -/

/-- Settles O46: the timers are read and written by the execute phase, and the timer update counts down
from what it finds (R107, R109, R110, R126). -/
theorem timerAccessComesBeforeTheTick : Obligations.TimerAccessComesBeforeTheTick := by
  unfold Obligations.TimerAccessComesBeforeTheTick
  exact fun x s => ⟨⟨_, exec_ldRDt s x, s.reg_setReg_same x s.DT⟩,
    ⟨_, exec_ldDt s x, rfl, rfl, fun dt => countDown_toNat _ (s.ticksDue dt)⟩,
    ⟨_, exec_ldSt s x, rfl, rfl, fun dt => countDown_toNat _ (s.ticksDue dt)⟩⟩

/-- Settles O47: the timer update is `countDown` of both timers by the ticks due, and its frame. -/
theorem timerUpdateSaturates : Obligations.TimerUpdateSaturates := by
  unfold Obligations.TimerUpdateSaturates
  exact fun s dt => ⟨rfl, countDown_toNat s.DT _, countDown_toNat s.ST _, s.timerUpdate_frame dt⟩

/-! ## The cadence law -/

/-- What a cycle does to time: the accumulator and the parameters of the state before it are those the
timer update works on, since no execute phase touches them. -/
theorem cycle_next_time {dt : Nat} {rnd : Byte} {s t : State} (h : cycle dt rnd s = .next t) :
    t.cfg = s.cfg ∧ t.tickAcc = (s.tickAcc + dt) % s.cfg.tickUnits := by
  obtain ⟨i, u, -, -, -, hx, rfl⟩ := cycle_next h
  obtain ⟨hcfg, htick, -⟩ := exec_cfg_tickAcc_rnd hx
  rw [State.timerUpdate_cfg, State.timerUpdate_tickAcc, hcfg, htick]
  exact ⟨rfl, rfl⟩

theorem runSteps_cons {dt : Nat} {rnd : Byte} {ins : List (Nat × Byte)} {s u : State} {n : Nat}
    (h : runSteps ((dt, rnd) :: ins) s = some (u, n)) :
    ∃ t m, cycle dt rnd s = .next t ∧ runSteps ins t = some (u, m) ∧ n = s.ticksDue dt + m := by
  rcases hc : cycle dt rnd s with t | f | r <;> rw [runSteps, hc] at h
  · obtain ⟨⟨v, m⟩, hrun, heq⟩ := Option.map_eq_some_iff.mp h
    cases heq
    exact ⟨t, m, rfl, hrun, rfl⟩
  · cases h
  · cases h

/-- The ticks of one stretch of time and of the rest that starts from its remainder are the ticks of the
whole. -/
theorem div_add_mod_add_div (a b k : Nat) : a / k + (a % k + b) / k = (a + b) / k := by
  rcases Nat.eq_zero_or_pos k with rfl | hk
  · simp only [Nat.div_zero]
  · calc a / k + (a % k + b) / k = (k * (a / k) + (a % k + b)) / k := (Nat.mul_add_div hk _ _).symm
      _ = (a + b) / k := by rw [← Nat.add_assoc, Nat.div_add_mod]

/-- The cadence law from any accumulator below `TICK_UNITS` (R125). -/
theorem runSteps_ticks (ins : List (Nat × Byte)) {s u : State} {n : Nat}
    (hacc : s.tickAcc / s.cfg.tickUnits = 0) (h : runSteps ins s = some (u, n)) :
    n = (s.tickAcc + (ins.map Prod.fst).sum) / s.cfg.tickUnits ∧
    u.tickAcc = (s.tickAcc + (ins.map Prod.fst).sum) % s.cfg.tickUnits := by
  induction ins generalizing s n with
  | nil =>
    have hrest := Nat.div_add_mod s.tickAcc s.cfg.tickUnits
    rw [hacc, Nat.mul_zero, Nat.zero_add] at hrest
    cases h
    exact ⟨hacc.symm, hrest.symm⟩
  | cons d ins ih =>
    obtain ⟨dt, rnd⟩ := d
    obtain ⟨t, m, hc, hrun, rfl⟩ := runSteps_cons h
    obtain ⟨hcfg, htick⟩ := cycle_next_time hc
    obtain ⟨rfl, hu⟩ := ih (by rw [htick, hcfg, Nat.mod_div_self]) hrun
    rw [hu, htick, hcfg, List.map_cons, List.sum_cons, ← Nat.add_assoc, State.ticksDue]
    exact ⟨div_add_mod_add_div _ _ _, Nat.mod_add_mod _ _ _⟩

/-- Settles O48, by induction on the steps from any accumulator below `TICK_UNITS`. -/
theorem ticksFollowElapsedTime : Obligations.TicksFollowElapsedTime := by
  unfold Obligations.TicksFollowElapsedTime
  intro ins s u n hzero h
  have hticks := runSteps_ticks ins (by rw [hzero, Nat.zero_div]) h
  rwa [hzero, Nat.zero_add] at hticks

end Sys2Proof.Machine
end

section
/-! The noninterference family: parts that no instruction reads, and inputs that only their own
instructions read (spec 10_state.md R24 to R30, 70_reset_and_hazards.md §2). -/

namespace Sys2Proof.Machine

/-- A change that commutes with the write of `pc` commutes with a skip. -/
theorem State.skipIf_map (f : State → State) {s : State} (c : Bool)
    (hf : ({ f s with pc := (f s).pc + 2 } : State) = f { s with pc := s.pc + 2 }) :
    (f s).skipIf c = f (s.skipIf c) := by
  cases c
  · rfl
  · exact hf

/-! ## `ST`, `redraw` and `tick_acc` -/

/-- Other values in the three parts that nothing in an execute phase reads. -/
def State.withUnread (v : Byte) (b : Bool) (n : Nat) (s : State) : State :=
  { s with ST := v, redraw := b, tickAcc := n }

theorem State.withUnread_same (t : State) (v : Byte) (b : Bool) (n : Nat) {p : StatePart}
    (hsound : p ≠ .sound) (hredraw : p ≠ .redraw) (htick : p ≠ .tickAcc) :
    p.same t (t.withUnread v b n) := by
  cases p with
  | sound => exact absurd rfl hsound
  | redraw => exact absurd rfl hredraw
  | tickAcc => exact absurd rfl htick
  | _ => rfl

/-- With other values in the unread parts an execute phase leaves the same state but for those parts,
two of which it may write. -/
theorem exec_withUnread {i : Instr} {s t : State} (v : Byte) (b : Bool) (n : Nat)
    (h : exec i s = .next t) :
    ∃ v' b', exec i (s.withUnread v b n) = .next (t.withUnread v' b' n) := by
  cases i with
  | ret =>
    obtain ⟨hpos, rfl⟩ := exec_ret_next h
    exact ⟨v, b, exec_ret_pop (s.withUnread v b n) hpos⟩
  | call nnn =>
    obtain ⟨hroom, rfl⟩ := exec_call_next h
    exact ⟨v, b, exec_call_push (s.withUnread v b n) nnn hroom⟩
  | ldRK x =>
    obtain ⟨hno, rfl⟩ | ⟨k, hk, rfl⟩ := exec_ldRK_next h
    · exact ⟨v, b, exec_ldRK_wait (s.withUnread v b n) x hno⟩
    · exact ⟨v, b, exec_ldRK_key (s.withUnread v b n) x k hk⟩
  | ldRegs x =>
    obtain rfl := exec_ldRegs_next h
    exact ⟨v, b, exec_ldRegs (s.withUnread v b n) x⟩
  | seImm | sneImm | seReg | sneReg | skp | sknp =>
    cases h
    exact ⟨v, b, congrArg _ (State.skipIf_map (State.withUnread v b n) _ rfl)⟩
  | cls => cases h; exact ⟨v, true, rfl⟩
  | drw => cases h; exact ⟨v, true, rfl⟩
  | ldSt x => cases h; exact ⟨s.reg x, b, rfl⟩
  | _ => cases h; exact ⟨v, b, rfl⟩

/-- Settles O49: the two results differ in the three parts at most. -/
theorem soundRedrawAndTickAccAreNeverRead : Obligations.SoundRedrawAndTickAccAreNeverRead := by
  unfold Obligations.SoundRedrawAndTickAccAreNeverRead
  intro i s t v b n h
  obtain ⟨v', b', hx⟩ := exec_withUnread v b n h
  exact ⟨_, hx, fun _ => State.withUnread_same t v' b' n⟩

/-! ## Dead stack entries -/

/-- Another stack. -/
def State.withStack (stk : Vector Word 16) (s : State) : State := { s with stack := stk }

theorem State.withStack_same (t : State) {stk : Vector Word 16} {p : StatePart}
    (hlive : ∀ k : Fin 16, k.val < t.sp.val → stk.get k = t.stack.get k)
    (hp : ∀ k, p = .entry k → k.val < t.sp.val) : p.same t (t.withStack stk) := by
  cases p with
  | entry k => exact hlive k (hp k rfl)
  | _ => rfl

/-- With another stack whose live entries are the same, an execute phase leaves the same state but for
the stack, whose live entries are again the same: a return reads a live entry, and a call writes the
entry that it makes live. -/
theorem exec_withStack {i : Instr} {s t : State} {stk : Vector Word 16}
    (hlive : ∀ k : Fin 16, k.val < s.sp.val → stk.get k = s.stack.get k) (h : exec i s = .next t) :
    ∃ stk', exec i (s.withStack stk) = .next (t.withStack stk') ∧
      ∀ k : Fin 16, k.val < t.sp.val → stk'.get k = t.stack.get k := by
  cases i with
  | ret =>
    obtain ⟨hpos, rfl⟩ := exec_ret_next h
    have hj : s.sp.val - 1 < 16 := by omega
    have htop : (s.withStack stk).top hpos = s.top hpos := by
      rw [State.top_eq (s.withStack stk) hpos ⟨_, hj⟩ (Nat.sub_add_cancel hpos),
        State.top_eq s hpos ⟨_, hj⟩ (Nat.sub_add_cancel hpos)]
      exact hlive ⟨_, hj⟩ (Nat.sub_lt hpos Nat.one_pos)
    have hpop : (s.withStack stk).pop hpos = (s.pop hpos).withStack stk :=
      congrArg (fun target => ((s.pop hpos).jump target).withStack stk) htop
    exact ⟨stk, (exec_ret_pop (s.withStack stk) hpos).trans (congrArg _ hpop),
      fun k hk => hlive k (hk.trans_le (Nat.sub_le _ 1))⟩
  | call nnn =>
    obtain ⟨hroom, rfl⟩ := exec_call_next h
    refine ⟨_, exec_call_push (s.withStack stk) nnn hroom, fun k hk => ?_⟩
    have hk : k.val < s.sp.val + 1 := hk
    rw [State.jump_stack, State.push_entry]
    refine ((s.withStack stk).push_entry hroom k).trans ?_
    by_cases hnew : k.val = s.sp.val
    · exact (if_pos hnew).trans (if_pos hnew).symm
    · exact (if_neg hnew).trans ((hlive k (by omega)).trans (if_neg hnew).symm)
  | ldRK x =>
    obtain ⟨hno, rfl⟩ | ⟨k, hk, rfl⟩ := exec_ldRK_next h
    · exact ⟨stk, exec_ldRK_wait (s.withStack stk) x hno, hlive⟩
    · exact ⟨stk, exec_ldRK_key (s.withStack stk) x k hk, hlive⟩
  | ldRegs x =>
    obtain rfl := exec_ldRegs_next h
    exact ⟨stk, exec_ldRegs (s.withStack stk) x, by simpa using hlive⟩
  | seImm | sneImm | seReg | sneReg | skp | sknp =>
    cases h
    exact ⟨stk, congrArg _ (State.skipIf_map (State.withStack stk) _ rfl), by simpa using hlive⟩
  | _ => cases h; exact ⟨stk, rfl, hlive⟩

/-- Settles O50: changing an entry at or above `sp` keeps every live entry. -/
theorem deadStackEntriesAreNeverRead : Obligations.DeadStackEntriesAreNeverRead := by
  unfold Obligations.DeadStackEntriesAreNeverRead
  intro i s t j v hdead h
  have hlive : ∀ k : Fin 16, k.val < s.sp.val → (s.stack.set j.val v).get k = s.stack.get k := by
    intro k hk
    rw [Vector.get_eq_getElem, Vector.get_eq_getElem, Vector.getElem_set_ne]
    omega
  obtain ⟨stk', hx, hlive'⟩ := exec_withStack hlive h
  exact ⟨_, hx, fun _ => State.withStack_same t hlive'⟩

/-! ## The draw and the parameters -/

/-- Another draw and other parameters. -/
def State.withInputs (v : Byte) (c : Config) (s : State) : State := { s with rnd := v, cfg := c }

theorem mapNext_congr {f g : State → State} {r : Result} (h : ∀ t, r = .next t → f t = g t) :
    mapNext f r = mapNext g r := by
  cases r with
  | next t => exact congrArg Host.Outcome.next (h t rfl)
  | fault | refused => rfl

/-- An execute phase gives the same outcome with another draw, `Cxkk` apart, and with other parameters,
the two shifts apart. -/
theorem exec_withInputs (i : Instr) (s : State) (v : Byte) (c : Config)
    (hrnd : ∀ x kk, i = .rnd x kk → v = s.rnd) (hshr : ∀ x y, i = .shr x y → c = s.cfg)
    (hshl : ∀ x y, i = .shl x y → c = s.cfg) :
    exec i (s.withInputs v c) = mapNext (State.withInputs v c) (exec i s) := by
  cases i with
  | ret =>
    rcases Nat.eq_zero_or_pos s.sp.val with hempty | hpos
    · rw [exec_ret_empty s hempty]
      exact exec_ret_empty (s.withInputs v c) hempty
    · rw [exec_ret_pop s hpos]
      exact exec_ret_pop (s.withInputs v c) hpos
  | call nnn =>
    rcases Nat.lt_succ_iff_lt_or_eq.mp s.sp.isLt with hroom | hfull
    · rw [exec_call_push s nnn hroom]
      exact exec_call_push (s.withInputs v c) nnn hroom
    · rw [exec_call_full s nnn hfull]
      exact exec_call_full (s.withInputs v c) nnn hfull
  | ldRK x =>
    obtain ⟨hno, hx⟩ | ⟨k, hk, hx⟩ := exec_ldRK_cases x s <;> rw [hx]
    · exact exec_ldRK_wait (s.withInputs v c) x hno
    · exact exec_ldRK_key (s.withInputs v c) x k hk
  | seImm | sneImm | seReg | sneReg | skp | sknp =>
    exact congrArg _ (State.skipIf_map (State.withInputs v c) _ rfl)
  | rnd x kk => cases hrnd x kk rfl; rfl
  | shr x y => cases hshr x y rfl; rfl
  | shl x y => cases hshl x y rfl; rfl
  | _ => rfl

/-- Settles O51: `exec_withInputs` with only the draw changed and with only the parameters changed; an
execute phase keeps the other of the two. -/
theorem drawAndQuirkReachOnlyTheirInstructions :
    Obligations.DrawAndQuirkReachOnlyTheirInstructions := by
  unfold Obligations.DrawAndQuirkReachOnlyTheirInstructions
  refine fun i s => ⟨fun v hrnd => ?_, fun c hshr hshl => ?_⟩
  · refine (exec_withInputs i s v s.cfg (fun x kk hi => absurd hi (hrnd x kk))
      (fun _ _ _ => rfl) (fun _ _ _ => rfl)).trans (mapNext_congr fun t ht => ?_)
    rw [State.withInputs, ← (exec_cfg_tickAcc_rnd ht).1]
  · refine (exec_withInputs i s s.rnd c (fun _ _ _ => rfl) (fun x y hi => absurd hi (hshr x y))
      (fun x y hi => absurd hi (hshl x y))).trans (mapNext_congr fun t ht => ?_)
    rw [State.withInputs, ← (exec_cfg_tickAcc_rnd ht).2.2]

end Sys2Proof.Machine
end

section
/-! The host family: reset, load, the keys, the sound timer and the fault record (spec 10_state.md §12,
60_exceptions.md §6, 70_reset_and_hazards.md §1). -/

namespace Sys2Proof.Machine

/-! ## Reset -/

theorem glyph_of_ge {d : Nat} (h : 16 ≤ d) : glyph d = [] := by
  unfold glyph
  split
  case h_17 => rfl
  all_goals omega

/-- Row `k` of glyph `d` stands at `5 * d + k` (R40). -/
theorem resetByte_font {d k : Nat} (hk : k < 5) : resetByte (5 * d + k) = (glyph d).getD k 0x00 := by
  have hd : (5 * d + k) / 5 = d := by omega
  have hr : (5 * d + k) % 5 = k := by omega
  rw [resetByte, hd, hr]

/-- Above the font every byte is zero after reset (R34). -/
theorem resetByte_above_font {a : Nat} (h : 0x050 ≤ a) : resetByte a = 0x00 := by
  rw [resetByte, glyph_of_ge (by omega)]
  rfl

theorem State.reset_byte (a : Addr) : State.reset.byte a = resetByte a.toNat := rfl

/-- The host's reset gives every part its reset value but the two it keeps (R136). -/
theorem State.hostReset_frame (s : State) :
    UnchangedOutside (fun p => p = .cfg ∨ p = .stepNo) State.reset s.hostReset := by
  intro p hp
  cases p with
  | cfg => exact absurd (.inl rfl) hp
  | stepNo => exact absurd (.inr rfl) hp
  | _ => rfl

/-- Settles O52: an unlisted address reads as the font below 0x050 and as zero above it, and the host's
reset agrees with `State.reset` outside the parts it keeps. -/
theorem resetStateIsTheTable : Obligations.ResetStateIsTheTable := by
  unfold Obligations.ResetStateIsTheTable
  refine ⟨rfl, fun r => ?regs, rfl, rfl, fun j => ?stack, rfl, rfl, Display.get_blank, rfl, rfl, rfl,
    rfl, fun d hd k hk => ?font, fun a ha => resetByte_above_font ha,
    fun s => ⟨s.hostReset, rfl, rfl, s.hostReset_frame, rfl, rfl⟩⟩
  case regs => exact (Vector.get_eq_getElem _ _).trans (Vector.getElem_replicate _)
  case stack => exact (Vector.get_eq_getElem _ _).trans (Vector.getElem_replicate _)
  case font =>
    rw [State.reset_byte, A12_toNat, Nat.mod_eq_of_lt (by omega), resetByte_font hk]

/-- Settles O53: the word at 0x200 after reset is 0x0000, which is in family 0 and is neither of its
two instructions. -/
theorem stepBeforeLoadFaults : Obligations.StepBeforeLoadFaults := by
  unfold Obligations.StepBeforeLoadFaults
  exact cycle_undecoded _ _ (s := State.reset) rfl (by decide) fun i hi => nomatch hi

/-! ## Load -/

/-- Byte `j` of a program goes to `0x200 + j` (R139). -/
theorem dataAddr_load (j : Nat) : dataAddr 0x200 j = BitVec.ofNat 12 (0x200 + j) := rfl

theorem State.hostLoad_byte {s : State} (hm : s.mem.wf) {bytes : List Byte}
    (hlen : bytes.length ≤ 3584) (j : Nat) (hj : j < bytes.length) :
    (s.hostLoad bytes).byte (BitVec.ofNat 12 (0x200 + j)) = bytes[j] := by
  have h := Memory.read_writeBlock hm 0x200 0 j bytes hj (by omega)
  rwa [Nat.zero_add, dataAddr_load] at h

theorem State.hostLoad_frame {s : State} (hm : s.mem.wf) (bytes : List Byte) :
    UnchangedOutside (fun p => ∃ j < bytes.length, p = .byte (BitVec.ofNat 12 (0x200 + j))) s
      (s.hostLoad bytes) := by
  intro p hp
  cases p with
  | byte a =>
    refine Memory.read_writeBlock_other hm 0x200 a 0 bytes fun j hj h => hp ⟨j, hj, ?_⟩
    rw [← h, Nat.zero_add, dataAddr_load]
  | _ => rfl

/-- Settles O54: the load of a program that fits is a block write from 0x200, and no two of its bytes
share an address. -/
theorem loadWritesOnlyItsBytes : Obligations.LoadWritesOnlyItsBytes := by
  unfold Obligations.LoadWritesOnlyItsBytes
  exact fun bytes s hlen => ⟨s.hostLoad bytes, if_neg hlen.not_gt,
    fun hm => ⟨s.hostLoad_byte hm hlen, s.hostLoad_frame hm bytes⟩⟩

/-! ## Keys, sound and the fault record -/

/-- The host's `set_keys` writes the mask alone (R130). -/
theorem HostOp.run_setKeys_frame (mask : Word) (s : State) :
    UnchangedOutside (· = .keys) s ((HostOp.setKeys mask).run s).1 := by
  intro p hp
  cases p with
  | keys => exact absurd rfl hp
  | _ => rfl

/-- Settles O60: `set_keys` has the mask for its whole frame, and the two reads hand out what they read
and leave the state (R128, R130, R131). -/
theorem hostWritesKeysAndReadsSoundAndFault : Obligations.HostWritesKeysAndReadsSoundAndFault := by
  unfold Obligations.HostWritesKeysAndReadsSoundAndFault
  refine fun s => ⟨fun mask => ⟨_, rfl, rfl, HostOp.run_setKeys_frame mask s⟩, ⟨_, rfl, ?_⟩, rfl⟩
  rw [bne_iff_ne, Ne, ← BitVec.toNat_inj]
  rfl

end Sys2Proof.Machine
end
